-- ==== Sys2Proof/Word.lean ====
section
/-! DEFINITION. The word types of the core: a byte, and the 8-byte register (00_scope.md R6, R8; 10_state.md R13). -/

namespace Sys2Proof

/-- A byte: 8 bits, bit 7 the most significant (00_scope.md R8). -/
abbrev Byte := BitVec 8

/-- The content of a register: exactly 8 bytes (10_state.md R13). Its value as a number, `be` of its bytes, is
`toNat`; byte index 0 is the most significant byte (`regBytes` in Machine/Bytes.lean gives the array view). -/
abbrev Reg := BitVec 64

end Sys2Proof
end

