-- ==== Sys2Proof/Machine/Bytes.lean ====
section
/-! DEFINITION. Byte sequences as big-endian numbers, and the array view of a register (00_scope.md R8, R9;
10_state.md R13; 20_memory.md R47). -/

namespace Sys2Proof

/-- `be(s)`: the unsigned big-endian value of a byte sequence; `be([]) = 0` (00_scope.md R9). -/
def be : List Byte → Nat
  | [] => 0
  | b :: bs => 256 ^ bs.length * b.toNat + be bs

/-- `tobe_n(x)`: the `n` bytes whose big-endian value is `x`, for `x < 256^n` (00_scope.md R9). For a larger `x` these
are the low-order `n` bytes of `x`. -/
def tobe : Nat → Nat → List Byte
  | 0, _ => []
  | n + 1, x => BitVec.ofNat 8 (x / 256 ^ n) :: tobe n x

/-- The 8 bytes of a register, index 0 the most significant (10_state.md R13). -/
def regBytes (r : Reg) : List Byte :=
  tobe 8 r.toNat

/-- The register that holds these 8 bytes (10_state.md R13). -/
def regOfBytes (bs : List Byte) : Reg :=
  BitVec.ofNat 64 (be bs)

/-- `s[lo..hi]`, both ends included (00_scope.md R8). -/
def slice (s : List Byte) (lo hi : Nat) : List Byte :=
  (s.drop lo).take (hi - lo + 1)

/-- `s` with the bytes `lo .. hi` replaced by `v`, the bytes outside `lo..hi` unchanged (10_state.md R18). -/
def splice (s : List Byte) (lo hi : Nat) (v : List Byte) : List Byte :=
  s.take lo ++ v ++ s.drop (hi + 1)

end Sys2Proof
end

