-- ==== Sys2Proof/Syntax.lean ====
section
/-! DEFINITION. The instructions of the core: one constructor of `Instr` for each row of spec/opcode_table.json
(30_encoding.md R59, R63, R73). -/

namespace Sys2Proof

/-- One character of a sector path: `l` the more significant half, `h` the less significant half (10_state.md R16). -/
inductive Half where
  | l
  | h
deriving DecidableEq, Repr

/-- An operand descriptor (30_encoding.md R63). The two identifier bytes are taken verbatim, whatever they are (R71);
a well-formed sector path has 0 to 3 characters (WellFormed.lean). -/
inductive Operand where
  /-- Register-direct: the identifier bytes and the sector path, first character first. -/
  | reg (c0 c1 : Byte) (sector : List Half)
  /-- Memory-direct: the width in bytes, 0 to 127, and the 32-bit address. -/
  | mem (width : BitVec 7) (address : BitVec 32)
deriving DecidableEq, Repr

/-- The instruction set (30_encoding.md R73). -/
inductive Instr where
  /-- 0x00 HALT (41_control_io.md R96). -/
  | halt
  /-- 0x01 OUTU: emit the inline byte as a number (R97). -/
  | outu (b : Byte)
  /-- 0x02 OUTC: emit the inline byte as a character (R98). -/
  | outc (b : Byte)
  /-- 0x03 COUT: emit the inline string, here without its 0x00 terminator (R99). -/
  | cout (str : List Byte)
  /-- 0x04 MOUT: emit the bytes of the operand (R100). -/
  | mout (src : Operand)
  /-- 0x05 STA: always a failure (R101). -/
  | sta (dst : Operand)
  /-- 0x10 UADD: unsigned add with carry out (42_alu.md R104). -/
  | uadd (src1 src2 dst : Operand)
deriving DecidableEq, Repr

end Sys2Proof
end

