-- ==== Sys2Proof/WellFormed.lean ====
section
/-! DEFINITION. Which terms of `Instr` stand for an encoded instruction: a sector path has at most 3 characters
(10_state.md R19), a COUT string has no 0x00 byte (30_encoding.md R59). The other bounds (width 0..127, 32-bit
address) are in the types. -/

namespace Sys2Proof

/-- The sector path has 0 to 3 characters (30_encoding.md R63). -/
def Operand.wellFormed : Operand → Bool
  | .reg _ _ sector => decide (sector.length ≤ 3)
  | .mem _ _ => true

/-- No byte of the string is the terminator 0x00 (30_encoding.md R59, format S). -/
def wellFormedString (str : List Byte) : Bool :=
  str.all (fun b => b != 0x00)

/-- The instruction is one that a byte sequence encodes. -/
def Instr.wellFormed : Instr → Bool
  | .halt => true
  | .outu _ => true
  | .outc _ => true
  | .cout str => wellFormedString str
  | .mout src => src.wellFormed
  | .sta dst => dst.wellFormed
  | .uadd src1 src2 dst => src1.wellFormed && src2.wellFormed && dst.wellFormed

/-- What an encoder may be asked to encode (30_encoding.md R69, R71): a well-formed descriptor whose identifier bytes
are ASCII, 0x00 to 0x7F. A decoded descriptor need not be one. -/
def Operand.encodable : Operand → Bool
  | .reg c0 c1 sector => decide (sector.length ≤ 3) && decide (c0.toNat < 0x80) && decide (c1.toNat < 0x80)
  | .mem _ _ => true

end Sys2Proof
end

