-- ==== Sys2Proof/Decode.lean ====
section
/-! DEFINITION. The decoder, total on any bytes, and the encoder (30_encoding.md R58 to R75). The decoder reads a
stream of bytes by position, as the core reads it through its fetch primitive (40_cycle.md R84, R85): the stream of the
core stands in Machine/Fetch.lean, the stream of a byte list here. -/

namespace Sys2Proof

/-! ## Opcodes (30_encoding.md R73) -/

def opHalt : Byte := 0x00
def opOutu : Byte := 0x01
def opOutc : Byte := 0x02
def opCout : Byte := 0x03
def opMout : Byte := 0x04
def opSta : Byte := 0x05
def opUadd : Byte := 0x10

/-- The opcode byte of an instruction (30_encoding.md R73). -/
def Instr.opcode : Instr → Byte
  | .halt => opHalt
  | .outu _ => opOutu
  | .outc _ => opOutc
  | .cout _ => opCout
  | .mout _ => opMout
  | .sta _ => opSta
  | .uadd _ _ _ => opUadd

/-- The opcode map of 30_encoding.md R73 lists this byte. -/
def isOpcode (op : Byte) : Bool :=
  op == opHalt || op == opOutu || op == opOutc || op == opCout || op == opMout || op == opSta || op == opUadd

/-! ## Lengths (30_encoding.md R59, R72) -/

/-- The length of a descriptor in bytes (R72). -/
def Operand.length : Operand → Nat
  | .reg _ _ _ => 3
  | .mem _ _ => 5

/-- The length of an instruction in bytes (R59). -/
def Instr.length : Instr → Nat
  | .halt => 1
  | .outu _ => 2
  | .outc _ => 2
  | .cout str => str.length + 2
  | .mout src => 1 + src.length
  | .sta dst => 1 + dst.length
  | .uadd src1 src2 dst => 1 + src1.length + src2.length + dst.length

/-! ## The register-direct first byte (30_encoding.md R65, R70) -/

/-- The mask of a path as a number: bit `i` is 1 when character `i` is `h`. -/
def pathMask : List Half → Nat
  | [] => 0
  | .l :: p => 2 * pathMask p
  | .h :: p => 1 + 2 * pathMask p

/-- The register-direct first byte of a path, reserved bits 0: bit 7, the mask from bit 2 up, the length in bits 1..0
(R65, R68). -/
def pathByte (p : List Half) : Byte :=
  BitVec.ofNat 8 (0x80 + 4 * pathMask p + p.length)

/-- The path length `LL` of a register-direct first byte: bits 1..0 (R65). -/
def pathLength (b1 : Byte) : Nat :=
  b1.toNat % 4

/-- The path of a register-direct first byte: character `i` is `h` when bit `2+i` is 1, for `i < LL`; no other bit is
read (R67, R70). -/
def pathOfByte (b1 : Byte) : List Half :=
  (List.range (pathLength b1)).map (fun i => if b1.getLsbD (2 + i) then Half.h else Half.l)

/-! ## Streams -/

/-- A stream of bytes from the instruction address on: the byte at each offset, `none` where it cannot be fetched. -/
abbrev Stream := Nat → Option Byte

/-- The stream of a byte list. -/
def listStream (bs : List Byte) : Stream :=
  fun k => bs[k]?

/-- What reading a part of an instruction answers: the part and the offset after it, or the offset of the first byte
that could not be fetched. -/
inductive Parsed (α : Type) where
  | done (a : α) (next : Nat)
  | short (at_ : Nat)
deriving DecidableEq, Repr

/-- What decoding an instruction answers. -/
inductive DecodeResult where
  /-- The instruction and its length in bytes. -/
  | ok (i : Instr) (len : Nat)
  /-- The opcode is none of 30_encoding.md R73 (R74). -/
  | illegal (op : Byte)
  /-- `n` bytes were fetched and the next one could not be (30_encoding.md R67; 40_cycle.md R83). -/
  | truncated (n : Nat)
deriving DecidableEq, Repr

/-! ## The decoder -/

/-- `DecodeOperand` (30_encoding.md R67) on the stream from offset `n`. -/
def decodeOperand (src : Stream) (n : Nat) : Parsed Operand :=
  match src n with
  | none => .short n
  | some b1 =>
    if b1.getLsbD 7 then
      match src (n + 1) with
      | none => .short (n + 1)
      | some c0 =>
        match src (n + 2) with
        | none => .short (n + 2)
        | some c1 => .done (.reg c0 c1 (pathOfByte b1)) (n + 3)
    else
      match src (n + 1) with
      | none => .short (n + 1)
      | some a3 =>
        match src (n + 2) with
        | none => .short (n + 2)
        | some a2 =>
          match src (n + 3) with
          | none => .short (n + 3)
          | some a1 =>
            match src (n + 4) with
            | none => .short (n + 4)
            | some a0 => .done (.mem (b1.setWidth 7) (BitVec.ofNat 32 (be [a3, a2, a1, a0]))) (n + 5)

/-- The zero-terminated string of COUT from offset `n` (41_control_io.md R99). `fuel` bounds the number of bytes; the
callers give at least as many as the stream holds, so that it is never what ends the string (log entry 12). -/
def decodeString (src : Stream) : Nat → Nat → Parsed (List Byte)
  | 0, n => .short n
  | fuel + 1, n =>
    match src n with
    | none => .short n
    | some b =>
      if b = 0x00 then .done [] (n + 1)
      else
        match decodeString src fuel (n + 1) with
        | .short m => .short m
        | .done bs m => .done (b :: bs) m

/-- One descriptor, from offset `n`, given to the rest of the decoding (40_cycle.md R86: descriptors in order). -/
def withOperand (src : Stream) (n : Nat) (k : Operand → Nat → DecodeResult) : DecodeResult :=
  match decodeOperand src n with
  | .short m => .truncated m
  | .done d m => k d m

/-- The opcode dispatch of 40_cycle.md R79 and the bytes each format fetches (30_encoding.md R59). `fuel` is a bound on
the bytes the stream holds. -/
def decodeStream (src : Stream) (fuel : Nat) : DecodeResult :=
  match src 0 with
  | none => .truncated 0
  | some op =>
    if op = opHalt then .ok .halt 1
    else if op = opOutu then
      match src 1 with
      | none => .truncated 1
      | some b => .ok (.outu b) 2
    else if op = opOutc then
      match src 1 with
      | none => .truncated 1
      | some b => .ok (.outc b) 2
    else if op = opCout then
      match decodeString src fuel 1 with
      | .short m => .truncated m
      | .done str m => .ok (.cout str) m
    else if op = opMout then
      withOperand src 1 (fun d m => .ok (.mout d) m)
    else if op = opSta then
      withOperand src 1 (fun d m => .ok (.sta d) m)
    else if op = opUadd then
      withOperand src 1 (fun d1 m1 =>
        withOperand src m1 (fun d2 m2 =>
          withOperand src m2 (fun d3 m3 => .ok (.uadd d1 d2 d3) m3)))
    else .illegal op

/-- The decoder on a byte list: the instruction at its front, its length, or why there is none. -/
def decode (bs : List Byte) : DecodeResult :=
  decodeStream (listStream bs) bs.length

/-! ## The encoder -/

/-- `EncodeOperand` (30_encoding.md R68). -/
def encodeOperand : Operand → List Byte
  | .reg c0 c1 sector => [pathByte sector, c0, c1]
  | .mem width address => width.setWidth 8 :: tobe 4 address.toNat

/-- The bytes of an instruction (30_encoding.md R59). -/
def encode : Instr → List Byte
  | .halt => [opHalt]
  | .outu b => [opOutu, b]
  | .outc b => [opOutc, b]
  | .cout str => opCout :: (str ++ [0x00])
  | .mout src => opMout :: encodeOperand src
  | .sta dst => opSta :: encodeOperand dst
  | .uadd src1 src2 dst => opUadd :: (encodeOperand src1 ++ encodeOperand src2 ++ encodeOperand dst)

/-! ## The opcode table's words -/

/-- The bytes of a table word: bit 0 is the least significant bit of the FIRST byte; then zeros, enough for every
operand byte and a terminator. -/
def tableBytes (nbits w : Nat) : List Byte :=
  (List.range ((nbits + 7) / 8)).map (fun k => BitVec.ofNat 8 (w / 256 ^ k)) ++ List.replicate 15 0x00

/-- The instruction the decoder reads from a table word, operand bytes the table does not give being zeros. -/
def decodeTableWord (nbits w : Nat) : Option Instr :=
  match decode (tableBytes nbits w) with
  | .ok i _ => some i
  | .illegal _ => none
  | .truncated _ => none

end Sys2Proof
end

