-- ==== Sys2Proof/Config.lean ====
section
/-! DEFINITION. What the host fixes when it constructs the core (the values `State.reset` takes; a `Construction` in
Machine/Construct.lean takes any others), the readings the spec decided, and the free values (00_scope.md R7). -/

namespace Sys2Proof.Config

/-- `MEM_SIZE` of `State.reset`: the largest capacity 00_scope.md R7 admits. DESIGN CHOICE (log entry 1), unsafe for
a claim about `State.reset` alone; every other claim is about each capacity, which is a field of the state. -/
def memSize : Nat := 2 ^ 64 - 1

/-- `N_GPR` of `State.reset`: the largest count 10_state.md R14 admits, so that every identifier "00".."ff" names a
register. DESIGN CHOICE (log entry 2), unsafe for a claim about `State.reset` alone. -/
def nGpr : Nat := 256

/-- `GPR_INIT` of `State.reset`, the same for each register. DESIGN CHOICE (log entry 3), unsafe. -/
def gprInit : Reg := 0

/-- `FL_INIT_REST` of `State.reset`: bytes 1..7 of the Flag register. DESIGN CHOICE (log entry 4), unsafe. -/
def flInitRest : BitVec 56 := 0

/-- What an address of memory that is not listed reads as: the zero fill, one of the fills 92_eei_decisions.md D2
admits for `MEM_FILL`. DESIGN CHOICE (log entry 5), unsafe. -/
def unlistedByte : Byte := 0x00

/-- The largest number of general registers the host may ask for (10_state.md R14). -/
def maxGpr : Nat := 256

/-- `UADD_CLEARS_OF`: a UADD without a carry writes 0x00 to `OF`. The spec decided `true` (00_scope.md R7;
92_eei_decisions.md D9; log entry 13). -/
def uaddClearsOf : Bool := true

/-- FREE VALUE (log entry 7): the `k`-th byte the random source of bus contention delivers (20_memory.md R42). It has
no body, so a claim holds whatever the bytes are. Safe. -/
opaque randomByte : Nat → Byte

/-- FREE VALUE (log entry 8): byte `j` of the empty data bus handed to a memory read request (20_memory.md R44;
93_implementation_defined.md I15). No rule reads it. Safe. -/
opaque idleBusByte : Nat → Byte

end Sys2Proof.Config
end

