-- ==== Sys2Proof/Machine/State.lean ====
section
/-! DEFINITION. The state of the core as plain data, the outcomes a step can stop with, and the state after
construction, the only reset (10_state.md; 20_memory.md R36; 60_exceptions.md R107, R113; 70_reset_and_hazards.md). -/

namespace Sys2Proof.Machine

/-- Memory: `size` is the capacity `MEM_SIZE`; `cells` lists, by rising address, the bytes that differ from what an
unlisted address reads as (20_memory.md R36; log entry 5). -/
structure Memory where
  size : Nat
  cells : List Host.Cell
deriving DecidableEq, Repr

/-- The four failure kinds (60_exceptions.md R107). -/
inductive FailKind where
  | outOfBounds
  | invalidOperand
  | busWidthMismatch
  | unimplementedOpcode
deriving DecidableEq, Repr

/-- The failure record (60_exceptions.md R113): the kind, the instruction address, and the opcode byte, none when the
opcode fetch itself failed. -/
structure FailRecord where
  kind : FailKind
  pc : Reg
  opcode : Option Byte
deriving DecidableEq, Repr

/-- The run state (10_state.md R29). -/
inductive RunState where
  | running
  | halted
  | failed (rec : FailRecord)
  | cancelled
deriving DecidableEq, Repr

/-- An output event (10_state.md R28). -/
inductive OutEvent where
  /-- OUTU: a byte as its unsigned decimal value. -/
  | u (b : Byte)
  /-- OUTC, COUT: a byte as a character. -/
  | c (b : Byte)
  /-- MOUT: bytes as comma-separated decimal values. -/
  | m (s : List Byte)
deriving DecidableEq, Repr

/-- The whole state of the core (10_state.md). -/
structure State where
  /-- The Program Counter, id "pc" (10_state.md R21). -/
  pc : Reg
  /-- The Flag register, id "fl"; byte 0 is `OF` (10_state.md R26). -/
  fl : Reg
  /-- The general registers; their number is `N_GPR` (10_state.md R14). -/
  gpr : List Reg
  /-- Memory (20_memory.md R36). -/
  mem : Memory
  /-- The run state (10_state.md R29). -/
  run : RunState
  /-- The output log, oldest event first (10_state.md R28). -/
  out : List OutEvent
  /-- The samples of the host's stop signal still to come, one a cycle; past the list's end it is not asserted
  (40_cycle.md R81; log entry 6). -/
  stop : List Bool
  /-- The model's own field: how many bytes the random source of bus contention has delivered (20_memory.md R42; log
  entry 7). No claim rests on its value. -/
  random : Nat
deriving DecidableEq, Repr

/-- Why a step answers no next state. -/
inductive Fault where
  /-- Raised by `step` alone, at a state whose run has ended (Halted, Failed or Cancelled): "no further step is taken
  from them" (10_state.md R29). Safe: the core takes no step there (log entry 10). -/
  | notRunning (run : RunState)
deriving DecidableEq, Repr

/-- Why an instruction has no meaning. No instruction of this model is refused. -/
inductive Refusal where
  /-- Raised by an arm of `exec` that has no meaning yet. Safe. -/
  | notModelled (mnemonic : String)
deriving DecidableEq, Repr

/-- The state after construction, the only reset (10_state.md R32; 70_reset_and_hazards.md R131). The spec gives pc,
`OF`, run, out and the stop signal; the model names the rest (log entries 1 to 7). -/
def State.reset : State where
  pc := 0
  fl := (0x00 : Byte) ++ Config.flInitRest
  gpr := List.replicate Config.nGpr Config.gprInit
  mem := { size := Config.memSize, cells := [] }
  run := .running
  out := []
  stop := []
  random := 0

end Sys2Proof.Machine
end

