-- ==== Sys2Proof/Machine/Ops.lean ====
section
/-! DEFINITION. The named operations over memory, registers, the output log and the run state, and FAILURE ENTRY, the
only exception the core has, as one operation `State.fail`. There is no return from a failure to model beside it
(60_exceptions.md R117, R118). -/

namespace Sys2Proof.Machine

/-! ## One byte of memory -/

/-- The byte the cells hold at `a`; an unlisted address reads as `Config.unlistedByte` (log entry 5). -/
def getCell (a : Nat) : List Host.Cell → Byte
  | [] => Config.unlistedByte
  | c :: cs => if c.1 = a then c.2 else getCell a cs

/-- The cells without those of address `a`. -/
def eraseCell (a : Nat) (cs : List Host.Cell) : List Host.Cell :=
  cs.filter (fun c => c.1 != a)

/-- The cells with one more, before the first of a higher address. -/
def insertCell (a : Nat) (b : Byte) : List Host.Cell → List Host.Cell
  | [] => [(a, b)]
  | c :: cs => if c.1 < a then c :: insertCell a b cs else (a, b) :: c :: cs

/-- The cells after a write: the value an unlisted address reads as is not listed. -/
def putCell (a : Nat) (b : Byte) (cs : List Host.Cell) : List Host.Cell :=
  if b = Config.unlistedByte then eraseCell a cs else insertCell a b (eraseCell a cs)

/-- The canonical form: addresses strictly rising, each below the capacity, no cell equal to what an unlisted address
reads as, and a capacity below 2^64 (20_memory.md R36). -/
abbrev Memory.wf (m : Memory) : Prop :=
  m.cells.Pairwise (fun c d => c.1 < d.1) ∧
    (∀ c ∈ m.cells, c.1 < m.size ∧ c.2 ≠ Config.unlistedByte) ∧ m.size < 2 ^ 64

/-- `mem[a]`. -/
def Memory.get (m : Memory) (a : Nat) : Byte :=
  getCell a m.cells

/-- `mem[a] <- b`. -/
def Memory.put (m : Memory) (a : Nat) (b : Byte) : Memory :=
  { m with cells := putCell a b m.cells }

/-- `mem[a], mem[a+1], ..` for `w` bytes. -/
def Memory.getBytes (m : Memory) (a w : Nat) : List Byte :=
  (List.range w).map (fun j => m.get (a + j))

/-- `mem[a], mem[a+1], ..` become the bytes of `v`. -/
def Memory.putBytes (m : Memory) (a : Nat) : List Byte → Memory
  | [] => m
  | b :: bs => (m.put a b).putBytes (a + 1) bs

/-! ## Bounds-checked memory access -/

/-- An access of `w` bytes at `a` is in bounds (20_memory.md R37). -/
def Memory.inBounds (m : Memory) (a w : Nat) : Bool :=
  decide (a + w ≤ m.size)

/-- `MemRead(a, w)` (20_memory.md R38). -/
def Memory.read (m : Memory) (a w : Nat) : Except FailKind (List Byte) :=
  if m.inBounds a w then .ok (m.getBytes a w) else .error .outOfBounds

/-- `MemWrite(a, w, v)`: the bound is that of the declared width, checked first (20_memory.md R39). -/
def Memory.write (m : Memory) (a w : Nat) (v : List Byte) : Except FailKind Memory :=
  if m.inBounds a w then
    if v.length = w then .ok (m.putBytes a v) else .error .busWidthMismatch
  else .error .outOfBounds

/-! ## Registers -/

/-- The registers of the register file (10_state.md R14). -/
inductive RegName where
  | pc
  | fl
  | gpr (i : Nat)
deriving DecidableEq, Repr

/-- The content of a register. -/
def State.getReg (s : State) : RegName → Reg
  | .pc => s.pc
  | .fl => s.fl
  | .gpr i => s.gpr.getD i 0

/-- Replace the content of a register. No register is hardwired (10_state.md R20). -/
def State.setReg (s : State) (r : RegName) (v : Reg) : State :=
  match r with
  | .pc => { s with pc := v }
  | .fl => { s with fl := v }
  | .gpr i => { s with gpr := s.gpr.set i v }

/-- `ProgramCounter.jump(address)` (10_state.md R23): the PC's 8 bytes become those of the address
(`State.jump_bytes` in Laws/Ops.lean). -/
def State.jump (s : State) (a : Nat) : State :=
  { s with pc := BitVec.ofNat 64 a }

/-- `ProgramCounter.increment()` (10_state.md R22): past 64 bits it is an error, not wraparound; the kind of the error
is the spec's decision D16. -/
def State.increment (s : State) : Except FailKind State :=
  if s.pc.toNat + 1 < 2 ^ 64 then .ok (s.jump (s.pc.toNat + 1)) else .error .outOfBounds

/-- The state after `n` successful increments, for `pc + n < 2^64` (10_state.md R24; log entry 11). -/
def State.advance (s : State) (n : Nat) : State :=
  { s with pc := s.pc + BitVec.ofNat 64 n }

/-! ## Output log -/

/-- `Emit(e)` (00_scope.md R10; 10_state.md R28). -/
def State.emit (s : State) (e : OutEvent) : State :=
  { s with out := s.out ++ [e] }

/-- `Emit(C b)` for each byte of a string in turn (41_control_io.md R99). -/
def State.emitChars (s : State) (str : List Byte) : State :=
  { s with out := s.out ++ str.map .c }

/-! ## Run state -/

/-- The numeric code of a failure kind (60_exceptions.md R107). -/
def failCode : FailKind → Nat
  | .outOfBounds => 1
  | .invalidOperand => 2
  | .busWidthMismatch => 3
  | .unimplementedOpcode => 4

/-- FAILURE ENTRY, `raise Fail(k)` (60_exceptions.md R112, R113): the run state becomes the failure record, with the
instruction address `ia` and the opcode; nothing else changes, no handler runs. -/
def State.fail (s : State) (k : FailKind) (ia : Reg) (op : Option Byte) : State :=
  { s with run := .failed { kind := k, pc := ia, opcode := op } }

/-- HALT's effect on the run state (41_control_io.md R96). -/
def State.halt (s : State) : State :=
  { s with run := .halted }

/-- Cancellation: the run state changes and nothing else does (40_cycle.md R81). -/
def State.cancel (s : State) : State :=
  { s with run := .cancelled }

/-- The host's move on its stop signal, which it may make before any cycle (40_cycle.md R93): the samples of the coming
cycles become `samples` (log entry 6). -/
def State.withStop (s : State) (samples : List Bool) : State :=
  { s with stop := samples }

/-- `STOP` as sampled at the start of the coming cycle (40_cycle.md R81; log entry 6). -/
def State.stopAsserted (s : State) : Bool :=
  s.stop.headD false

/-- The coming cycle's sample of `STOP` has been taken (log entry 6). -/
def State.sampleStop (s : State) : State :=
  { s with stop := s.stop.tail }

end Sys2Proof.Machine
end

