-- ==== Sys2Proof/Machine/Bus.lean ====
section
/-! DEFINITION. The Bus transaction contract, bus contention, and the Bus-mediated entry point to memory
(20_memory.md R40 to R45). -/

namespace Sys2Proof.Machine

/-- The role of a bus (20_memory.md R43): the document's ReadOnly and Writable. -/
inductive Direction where
  | sourceOfData
  | destinationOfData
deriving DecidableEq, Repr

/-- A bus of one transaction (20_memory.md R40). The width is the length of the content, so that the invariant
`len(content) = width` holds of every bus. -/
structure Bus where
  content : List Byte
  direction : Direction
deriving DecidableEq, Repr

/-- The width of a bus (20_memory.md R40). -/
def Bus.width (b : Bus) : Nat :=
  b.content.length

/-- `Bus.read()`: a copy of the content (20_memory.md R41). -/
def Bus.read (b : Bus) : List Byte :=
  b.content

/-- A `SourceOfData` bus that carries `v`. -/
def Bus.source (v : List Byte) : Bus :=
  { content := v, direction := .sourceOfData }

/-- A `DestinationOfData` bus whose content is `v`. -/
def Bus.destination (v : List Byte) : Bus :=
  { content := v, direction := .destinationOfData }

/-- The empty data bus of width `w` of a memory read request; its content is a free value that no rule reads
(20_memory.md R44; 93_implementation_defined.md I15; log entry 8). -/
def Bus.request (w : Nat) : Bus :=
  .destination ((List.range w).map Config.idleBusByte)

/-- `draw(Bytes w)` from the random source, which has delivered `random` bytes so far (20_memory.md R42; log entry 7). -/
def drawBytes (random w : Nat) : List Byte :=
  (List.range w).map (fun j => Config.randomByte (random + j))

/-- `Bus.write(v)`, with how many bytes the random source has delivered before and after. On a destination the length
must be the width (20_memory.md R41); on a source it is bus contention, which never fails (R42). It changes the bus
only, never an endpoint. -/
def Bus.write (b : Bus) (v : List Byte) (random : Nat) : Except FailKind (Bus × Nat) :=
  match b.direction with
  | .destinationOfData =>
    if v.length = b.width then .ok ({ b with content := v }, random) else .error .busWidthMismatch
  | .sourceOfData => .ok ({ b with content := drawBytes random b.width }, random + b.width)

/-- `Memory.present(addr_bus, data_bus)` (20_memory.md R44, R45): the memory after the transaction, and the fresh bus a
read request answers with. -/
def Memory.present (m : Memory) (addr data : Bus) : Except FailKind (Memory × Option Bus) :=
  match data.direction with
  | .destinationOfData =>
    match m.read (be addr.read) data.width with
    | .ok v => .ok (m, some (.destination v))
    | .error k => .error k
  | .sourceOfData =>
    match m.write (be addr.read) data.width data.read with
    | .ok m' => .ok (m', none)
    | .error k => .error k

end Sys2Proof.Machine
end

