-- ==== Sys2Proof/Machine/Operands.lean ====
section
/-! DEFINITION. Sector paths, register identifiers, and every operand form: resolving an input, resolving the output,
committing it (10_state.md R15 to R19; 30_encoding.md R61, R62; 40_cycle.md R86 to R90). -/

namespace Sys2Proof.Machine

/-! ## Sector paths (10_state.md R16, R19) -/

/-- The bisection of `SectorRange` from the range `(lo, hi)` on. -/
def bisect : List Half → Nat × Nat → Nat × Nat
  | [], r => r
  | .h :: p, (lo, hi) => bisect p ((lo + hi) / 2 + 1, hi)
  | .l :: p, (lo, hi) => bisect p (lo, (lo + hi) / 2)

/-- `SectorRange(p)`: the inclusive byte range of a path; a path longer than 3 characters is `InvalidOperand`. -/
def sectorRange (p : List Half) : Except FailKind (Nat × Nat) :=
  if p.length ≤ 3 then .ok (bisect p (0, 7)) else .error .invalidOperand

/-- The path a string spells; any character but `l` and `h` is `InvalidOperand` (10_state.md R19). -/
def parsePath : List Char → Except FailKind (List Half)
  | [] => .ok []
  | c :: cs =>
    match parsePath cs with
    | .error k => .error k
    | .ok p => if c = 'l' then .ok (.l :: p) else if c = 'h' then .ok (.h :: p) else .error .invalidOperand

/-- `SectorRange` on a string, the stand-alone utility (30_encoding.md R61). -/
def sectorRangeOfString (cs : List Char) : Except FailKind (Nat × Nat) :=
  match parsePath cs with
  | .error k => .error k
  | .ok p => sectorRange p

/-! ## Register identifiers (10_state.md R15; 30_encoding.md R62) -/

/-- The value of a lowercase hexadecimal digit given as its ASCII byte. -/
def hexval (c : Byte) : Option Nat :=
  if 0x30 ≤ c.toNat ∧ c.toNat ≤ 0x39 then some (c.toNat - 0x30)
  else if 0x61 ≤ c.toNat ∧ c.toNat ≤ 0x66 then some (c.toNat - 0x61 + 10)
  else none

/-- `RegDecode(c0, c1)` for a register file of `nGpr` general registers. -/
def regDecode (nGpr : Nat) (c0 c1 : Byte) : Option RegName :=
  if c0 = 0x70 ∧ c1 = 0x63 then some .pc
  else if c0 = 0x66 ∧ c1 = 0x6C then some .fl
  else
    match hexval c0, hexval c1 with
    | some h0, some h1 => if 16 * h0 + h1 < nGpr then some (.gpr (16 * h0 + h1)) else none
    | _, _ => none

/-- The register an identifier names; none is `InvalidOperand` (40_cycle.md R89). -/
def State.findReg (s : State) (c0 c1 : Byte) : Except FailKind RegName :=
  match regDecode s.gpr.length c0 c1 with
  | some r => .ok r
  | none => .error .invalidOperand

/-! ## Sector access (10_state.md R17, R18) -/

/-- `SectorRead(id, p)`: a copy of the bytes of the sector. -/
def State.sectorRead (s : State) (r : RegName) (p : List Half) : Except FailKind (List Byte) :=
  match sectorRange p with
  | .error k => .error k
  | .ok (lo, hi) => .ok (slice (regBytes (s.getReg r)) lo hi)

/-- `SectorWrite(id, p, v)`: the bytes of the sector become `v`, the others are unchanged. -/
def State.sectorWrite (s : State) (r : RegName) (p : List Half) (v : List Byte) : Except FailKind State :=
  match sectorRange p with
  | .error k => .error k
  | .ok (lo, hi) =>
    if v.length = hi - lo + 1 then
      .ok (s.setReg r (regOfBytes (splice (regBytes (s.getReg r)) lo hi v)))
    else .error .busWidthMismatch

/-! ## Operands -/

/-- `ResolveRead(d)` (40_cycle.md R87): a source bus with a copy of the operand's bytes. -/
def State.resolveRead (s : State) : Operand → Except FailKind Bus
  | .reg c0 c1 sector => do
    let r ← s.findReg c0 c1
    let v ← s.sectorRead r sector
    return .source v
  | .mem width address => do
    match ← s.mem.present (.source (tobe 4 address.toNat)) (.request width.toNat) with
    | (_, some b) => return .source b.read
    | (_, none) => .error .outOfBounds

/-- `ResolveWrite(d)` (40_cycle.md R88): a destination bus of the operand's width; it checks the operand and writes
nothing. -/
def State.resolveWrite (s : State) : Operand → Except FailKind Bus
  | .reg c0 c1 sector => do
    let r ← s.findReg c0 c1
    let v ← s.sectorRead r sector
    return .destination v
  | .mem width address => do
    let v ← s.mem.read address.toNat width.toNat
    return .destination v

/-- `Commit(d, bus)` (40_cycle.md R90): the bus's bytes go to the operand's endpoint. -/
def State.commit (s : State) (bus : Bus) : Operand → Except FailKind State
  | .reg c0 c1 sector => do
    let r ← s.findReg c0 c1
    s.sectorWrite r sector bus.read
  | .mem _ address => do
    let (m, _) ← s.mem.present (.source (tobe 4 address.toNat)) (.source bus.read)
    return { s with mem := m }

end Sys2Proof.Machine
end

