-- ==== Sys2Proof/Machine/Flags.lean ====
section
/-! DEFINITION. The one flag, `OF`: byte 0 of the Flag register, its sector "lll" (10_state.md R26, R27), and how UADD
computes it (42_alu.md R104). -/

namespace Sys2Proof.Machine

/-- `OF`, byte 0 of the Flag register (10_state.md R26). -/
def State.of (s : State) : Byte :=
  (regBytes s.fl).headD 0

/-- The carry of an addition of `n` bytes: `sum div 256^n` (42_alu.md R104). -/
def carryOut (n x y : Nat) : Nat :=
  (x + y) / 256 ^ n

/-- The state with the carry in `OF`, written as one byte through the sector "lll" (42_alu.md R104). A zero carry is
written too, as the spec decided (`UADD_CLEARS_OF`, log entry 13). -/
def State.setCarry (s : State) (carry : Nat) : Except FailKind State :=
  if carry = 0 ∧ Config.uaddClearsOf = false then .ok s
  else s.sectorWrite .fl [.l, .l, .l] [BitVec.ofNat 8 carry]

end Sys2Proof.Machine
end

