-- ==== Sys2Proof/Machine/Alu.lean ====
section
/-! DEFINITION. The ALU: a stateless dispatcher keyed by the opcode, over the resolved buses (the last being the
output) and the Flag register (42_alu.md R102 to R104). -/

namespace Sys2Proof.Machine

/-- UADD on its three buses: the checks, the low-order bytes of the sum on the output bus, the carry in `OF`
(42_alu.md R104). The state carries the Flag register and the random source the output bus is written with. -/
def aluUadd (s : State) (i1 i2 o : Bus) : Except FailKind (State × Bus) := do
  let n := i1.width
  if i2.width ≠ n then .error .invalidOperand
  if o.width ≠ n then .error .busWidthMismatch
  let x := be i1.read
  let y := be i2.read
  let (o', random) ← o.write (tobe n ((x + y) % 256 ^ n)) s.random
  let s' ← State.setCarry { s with random := random } (carryOut n x y)
  return (s', o')

/-- The dispatch by opcode (42_alu.md R102). No other opcode, and no other number of buses, is passed to it by the
control unit. -/
def aluRun (s : State) (op : Byte) (buses : List Bus) : Except FailKind (State × Bus) :=
  match buses with
  | [i1, i2, o] => if op = opUadd then aluUadd s i1 i2 o else .error .invalidOperand
  | _ => .error .invalidOperand

/-- The control unit's part of an ALU opcode with two inputs and an output (42_alu.md R103): resolve in operand order,
run the ALU, commit the output. -/
def State.aluInstr (s : State) (op : Byte) (src1 src2 dst : Operand) : Except FailKind State := do
  let i1 ← s.resolveRead src1
  let i2 ← s.resolveRead src2
  let o ← s.resolveWrite dst
  let (s', o') ← aluRun s op [i1, i2, o]
  s'.commit o' dst

end Sys2Proof.Machine
end

