-- ==== Sys2Proof/Machine/Arith.lean ====
section
/-! DEFINITION. The meaning of UADD (42_alu.md R104). -/

namespace Sys2Proof.Machine

/-- UADD (42_alu.md R104): a failure leaves `OF` and the output unwritten (60_exceptions.md R112). -/
def execUadd (src1 src2 dst : Operand) (s : State) : Host.Outcome State Fault Refusal :=
  let s1 := s.advance (Instr.uadd src1 src2 dst).length
  match s1.aluInstr opUadd src1 src2 dst with
  | .ok s2 => .next s2
  | .error k => .next (s1.fail k s.pc (some opUadd))

end Sys2Proof.Machine
end

