-- ==== Sys2Proof/Machine/Control.lean ====
section
/-! DEFINITION. The meanings of HALT and STA (41_control_io.md R96, R101). Every meaning of the model is given the state
at the instruction's address, before any of its bytes is fetched, and advances the PC past them itself (log entry 11). -/

namespace Sys2Proof.Machine

/-- HALT (41_control_io.md R96). -/
def execHalt (s : State) : Host.Outcome State Fault Refusal :=
  .next (s.advance Instr.halt.length).halt

/-- STA (41_control_io.md R101): the descriptor is fetched and never resolved; the failure is UnimplementedOpcode. -/
def execSta (dst : Operand) (s : State) : Host.Outcome State Fault Refusal :=
  .next ((s.advance (Instr.sta dst).length).fail .unimplementedOpcode s.pc (some opSta))

end Sys2Proof.Machine
end

