-- ==== Sys2Proof/Machine/Output.lean ====
section
/-! DEFINITION. The meanings of OUTU, OUTC, COUT and MOUT (41_control_io.md R97 to R100). -/

namespace Sys2Proof.Machine

/-- OUTU (41_control_io.md R97). -/
def execOutu (b : Byte) (s : State) : Host.Outcome State Fault Refusal :=
  .next ((s.advance (Instr.outu b).length).emit (.u b))

/-- OUTC (41_control_io.md R98). -/
def execOutc (b : Byte) (s : State) : Host.Outcome State Fault Refusal :=
  .next ((s.advance (Instr.outc b).length).emit (.c b))

/-- COUT of a string whose terminator was fetched (41_control_io.md R99). A string cut by the end of memory is
`State.failTruncated`. -/
def execCout (str : List Byte) (s : State) : Host.Outcome State Fault Refusal :=
  .next ((s.advance (Instr.cout str).length).emitChars str)

/-- MOUT (41_control_io.md R100). -/
def execMout (src : Operand) (s : State) : Host.Outcome State Fault Refusal :=
  let s1 := s.advance (Instr.mout src).length
  match s1.resolveRead src with
  | .ok bus => .next (s1.emit (.m bus.read))
  | .error k => .next (s1.fail k s.pc (some opMout))

end Sys2Proof.Machine
end

