-- ==== Sys2Proof/Machine/Dispatch.lean ====
section
/-! DEFINITION. What each instruction does: one arm per constructor (40_cycle.md R79; 30_encoding.md R73). -/

namespace Sys2Proof.Machine

def exec (i : Instr) (s : State) : Host.Outcome State Fault Refusal :=
  match i with
  | .halt => Sys2Proof.Machine.execHalt s
  | .outu b => Sys2Proof.Machine.execOutu b s
  | .outc b => Sys2Proof.Machine.execOutc b s
  | .cout str => Sys2Proof.Machine.execCout str s
  | .mout src => Sys2Proof.Machine.execMout src s
  | .sta dst => Sys2Proof.Machine.execSta dst s
  | .uadd src1 src2 dst => Sys2Proof.Machine.execUadd src1 src2 dst s

end Sys2Proof.Machine
end

