-- ==== Sys2Proof/Machine/Fetch.lean ====
section
/-! DEFINITION. The fetch primitive, the instruction stream at the PC, and how a cycle ends that gets no whole
instruction (40_cycle.md R79 to R85; 30_encoding.md R74); and placing an instruction where it is fetched. -/

namespace Sys2Proof.Machine

/-- `Fetch()` (40_cycle.md R83): the byte at the PC through a bus transaction, then the increment. -/
def State.fetch (s : State) : Except FailKind (Byte × State) := do
  match ← s.mem.present (.source (regBytes s.pc)) (.request 1) with
  | (_, some bus) =>
    match bus.read with
    | b :: _ => return (b, ← s.increment)
    | [] => .error .outOfBounds
  | (_, none) => .error .outOfBounds

/-- The stream the decoder reads: byte `k` is what `Fetch()` gives after `k` successful fetches, none where it fails
(40_cycle.md R84, R85). -/
def State.codeStream (s : State) : Stream := fun k =>
  if s.pc.toNat + k < 2 ^ 64 then
    match (s.advance k).fetch with
    | .ok (b, _) => some b
    | .error _ => none
  else none

/-- The instruction at the PC. The stream holds at most `size - pc` bytes (log entry 12). -/
def State.fetchInstr (s : State) : DecodeResult :=
  decodeStream s.codeStream (s.mem.size - s.pc.toNat)

/-- The end of a cycle whose opcode is illegal (30_encoding.md R74; 60_exceptions.md R109). -/
def State.failIllegal (s : State) (op : Byte) : State :=
  (s.advance 1).fail .invalidOperand s.pc (some op)

/-- The characters a COUT has emitted when `n` of its bytes, the opcode included, were fetched and the next could not be
(41_control_io.md R99; the spec's decision D19). Any other instruction has emitted nothing. -/
def State.partialChars (s : State) (n : Nat) : List Byte :=
  if s.codeStream 0 = some opCout then (List.range (n - 1)).filterMap (fun k => s.codeStream (k + 1)) else []

/-- The end of a cycle whose fetch failed after `n` bytes (40_cycle.md R83; 60_exceptions.md R108, R112, R113): the
increments and the characters of a COUT stay; the record has no opcode when the opcode fetch itself failed. -/
def State.failTruncated (s : State) (n : Nat) : State :=
  ((s.advance n).emitChars (s.partialChars n)).fail .outOfBounds s.pc (s.codeStream 0)

/-- The state with the bytes placed at the PC, the capacity reaching over them, the run state Running, and no stop
sample that would cancel the coming cycle (log entry 15). -/
def State.placeCode (s : State) (bs : List Byte) : State :=
  { s with
    mem := { s.mem with size := max s.mem.size (s.pc.toNat + bs.length) }.putBytes s.pc.toNat bs
    run := .running
    stop := if s.stopAsserted then [] else s.stop }

end Sys2Proof.Machine
end

