-- ==== Sys2Proof/Machine/Step.lean ====
section
/-! DEFINITION. One instruction cycle (40_cycle.md R79), and placing an instruction where it is fetched next. -/

namespace Sys2Proof.Machine

/-- `Step()` (40_cycle.md R79): STOP first (R81), then the instruction at the PC. From a terminal run state there is no
step (10_state.md R29). -/
def step (s : State) : Host.Outcome State Fault Refusal :=
  match s.run with
  | .running =>
    if s.stopAsserted then .next s.cancel
    else
      match s.sampleStop.fetchInstr with
      | .ok i _ => exec i s.sampleStop
      | .illegal op => .next (s.sampleStop.failIllegal op)
      | .truncated n => .next (s.sampleStop.failTruncated n)
  | r => .fault (.notRunning r)

/-- `s` with the instruction of a table word stored where `step` fetches next (log entry 15). -/
def State.withFetchWord (s : State) (nbits w : Nat) : State :=
  s.placeCode (tableBytes nbits w)

end Sys2Proof.Machine
end

