-- ==== Sys2Proof/Machine/Construct.lean ====
section
/-! DEFINITION. Construction, the only reset, from any inputs of the host (70_reset_and_hazards.md R127 to R131;
40_cycle.md R93; 00_scope.md R7). `State.reset` is its value at the inputs log entries 1 to 5 and 7 name. -/

namespace Sys2Proof.Machine

/-- What the host supplies. `N_GPR` is the number of initial register contents; memory beyond the image holds `fill`
and then `Config.unlistedByte`, so that every fill can be given. The stop sequence is no input of the construction: the
host asserts the signal while the core runs (40_cycle.md R93), by `State.withStop`. -/
structure Construction where
  /-- `IMAGE`, loaded at address 0. -/
  image : List Byte
  /-- `MEM_SIZE`; `none` takes the default, the length of the image (92_eei_decisions.md D1). -/
  memSize : Option Nat
  /-- `MEM_FILL`: the bytes from the end of the image on. -/
  fill : List Byte
  /-- `GPR_INIT`, one content for each of the `N_GPR` general registers. -/
  gprInit : List Reg
  /-- `FL_INIT_REST`: bytes 1..7 of the Flag register. -/
  flInitRest : BitVec 56
  /-- The random seed: where in the random source the core starts (40_cycle.md R93; log entry 7). -/
  seed : Nat
deriving DecidableEq, Repr

/-- The capacity the host asks for (92_eei_decisions.md D1). -/
def Construction.capacity (c : Construction) : Nat :=
  c.memSize.getD c.image.length

/-- The inputs are not refused (70_reset_and_hazards.md R130); the fill must fit as the image does. -/
def Construction.accepted (c : Construction) : Bool :=
  decide (c.image.length ≤ c.capacity) && decide (c.capacity < 2 ^ 64) &&
    decide (c.gprInit.length ≤ Config.maxGpr) && decide (c.image.length + c.fill.length ≤ c.capacity)

/-- The construction sequence (70_reset_and_hazards.md R129) and the state it leaves (10_state.md R32); `none` when
the inputs are refused. -/
def construct (c : Construction) : Option State :=
  if c.accepted then
    some
      { pc := 0
        fl := (0x00 : Byte) ++ c.flInitRest
        gpr := c.gprInit
        mem := Memory.putBytes { size := c.capacity, cells := [] } 0 (c.image ++ c.fill)
        run := .running
        out := []
        stop := []
        random := c.seed }
  else none

end Sys2Proof.Machine
end

