-- ==== Sys2Proof/Machine/Render.lean ====
section
/-! DEFINITION. The rendering of the output log as text: the parameter `RENDER`, an argument of `renderLog`, and its
default (00_scope.md R7; 92_eei_decisions.md D18; log entry 14). The core's output is the event log (10_state.md R28);
`step` calls nothing of this file. -/

namespace Sys2Proof.Machine

/-- The parameter `RENDER`: how the host renders each event as text (10_state.md R28; 00_scope.md R7). -/
abbrev Render := OutEvent → List Char

/-- The text the host's sink has received of a log under `render`: the events in order, each as its text (40_cycle.md
R93). -/
def renderLog (render : Render) (out : List OutEvent) : List Char :=
  out.flatMap render

/-- The decimal digits of a byte, no leading zeros. -/
def renderByte (b : Byte) : List Char :=
  Nat.toDigits 10 b.toNat

/-- Decimal values joined by commas, no spaces; nothing for the empty sequence. -/
def renderBytes : List Byte → List Char
  | [] => []
  | [b] => renderByte b
  | b :: bs => renderByte b ++ ',' :: renderBytes bs

/-- The default `RENDER` (92_eei_decisions.md D18). -/
def renderDefault : Render
  | .u b => renderByte b
  | .c b => [Char.ofNat b.toNat]
  | .m s => renderBytes s

end Sys2Proof.Machine
end

