-- ==== Sys2Proof/Machine/Run.lean ====
section
/-! DEFINITION. The run loop, the result of a run, and the observation of a program (40_cycle.md R78, R93 to R95). -/

namespace Sys2Proof.Machine

/-- The result of a run: the final run state and the output log, and the final state, which the host may inspect
(40_cycle.md R78, R93, R94). -/
structure RunResult where
  run : RunState
  out : List OutEvent
  final : State
deriving DecidableEq, Repr

/-- What a run that ends in `s` returns. -/
def State.result (s : State) : RunResult :=
  { run := s.run, out := s.out, final := s }

/-- The state after `n` cycles; none where one of them is no step, its state not being Running (40_cycle.md R78,
R79). -/
def State.afterCycles : Nat → State → Option State
  | 0, s => some s
  | n + 1, s =>
    match step s with
    | .next t => t.afterCycles n
    | .fault _ => none
    | .refused _ => none

/-- `Run()` for an executor whose fuel is `fuel` cycles (40_cycle.md R78): the cycle is repeated while the run state is
Running, and the result is returned at the first state where it is not. None where the fuel ends before the run does
(log entry 17). -/
def State.runLoop : Nat → State → Option RunResult
  | 0, s =>
    match s.run with
    | .running => none
    | .halted | .cancelled | .failed _ => some s.result
  | fuel + 1, s =>
    match s.run with
    | .running =>
      match step s with
      | .next t => t.runLoop fuel
      | .fault _ => none
      | .refused _ => none
    | .halted | .cancelled | .failed _ => some s.result

/-- `Run()` from `s` returns `r`, whatever fuel that takes (40_cycle.md R78, R94). A run that never ends returns nothing
(70_reset_and_hazards.md R142). -/
def State.runsTo (s : State) (r : RunResult) : Prop :=
  ∃ fuel, s.runLoop fuel = some r

/-- The whole interaction of the host with one core (40_cycle.md R93): construct, run with the stop sequence `stop`, and
take the result; none where the construction is refused or the fuel ends first. -/
def hostRun (c : Construction) (stop : List Bool) (fuel : Nat) : Option RunResult :=
  match construct c with
  | some s => (s.withStop stop).runLoop fuel
  | none => none

/-- The text the host's sink has received when the run ends, under the host's `RENDER` (40_cycle.md R93; 00_scope.md R7;
log entry 14). -/
def RunResult.text (render : Render) (r : RunResult) : List Char :=
  renderLog render r.out

/-- The observation of a program (40_cycle.md R95): the results over every choice of `MEM_FILL`, `GPR_INIT`,
`FL_INIT_REST`, the seed of `RANDOM` (whose bytes are free values, log entry 7) and the stop sequence; the image, the
capacity and the number of general registers are given. -/
def observation (image : List Byte) (memSize : Option Nat) (nGpr : Nat) (r : RunResult) : Prop :=
  ∃ (c : Construction) (stop : List Bool) (fuel : Nat),
    c.image = image ∧ c.memSize = memSize ∧ c.gprInit.length = nGpr ∧ hostRun c stop fuel = some r

end Sys2Proof.Machine
end

