-- ==== Sys2Proof/Safety.lean ====
section
/-! DEFINITION. The words claims about the core are stated in: the invariant of the state, what a safe run is, and what
an operand is, read and written without the bus. -/

namespace Sys2Proof.Machine

/-- The invariant of every core: memory in canonical form with a capacity below 2^64 (20_memory.md R36), and at most
256 general registers (10_state.md R14). -/
abbrev State.Inv (s : State) : Prop :=
  s.mem.wf ∧ s.gpr.length ≤ Config.maxGpr

/-- The run has not failed: Running, Halted or Cancelled. -/
def State.safe (s : State) : Bool :=
  match s.run with
  | .running => true
  | .halted => true
  | .cancelled => true
  | .failed _ => false

/-- A cycle begins at this state: it is Running and STOP is not asserted (40_cycle.md R79, R81). -/
abbrev State.ready (s : State) : Prop :=
  s.run = .running ∧ s.stopAsserted = false

/-- The state with `tobe_8(pc + n)` in the PC: the PC after `n` fetches, where `pc + n < 2^64` (10_state.md R22,
R24). -/
def State.atNext (s : State) (n : Nat) : State :=
  { s with pc := BitVec.ofNat 64 (s.pc.toNat + n) }

/-- The PC does not run past 64 bits over the `n` bytes of an instruction at it: so of every instruction the core
fetches whole (10_state.md R22). -/
abbrev State.fits (s : State) (n : Nat) : Prop :=
  s.pc.toNat + n < 2 ^ 64

/-- The bytes from the PC to the end of memory, in address order. -/
def State.codeBytes (s : State) : List Byte :=
  s.mem.getBytes s.pc.toNat (s.mem.size - s.pc.toNat)

/-- The inclusive byte range of the sector of a path of at most 3 characters (10_state.md R16). -/
def sectorBounds (p : List Half) : Nat × Nat :=
  bisect p (0, 7)

/-- The width of an operand in bytes (20_memory.md R49). -/
def operandWidth : Operand → Nat
  | .reg _ _ sector => (sectorBounds sector).2 - (sectorBounds sector).1 + 1
  | .mem width _ => width.toNat

/-- Resolving the operand does not fail: its identifier names a register and its path has at most 3 characters, or its
range is in bounds (40_cycle.md R87 to R89). -/
def State.resolves (s : State) : Operand → Bool
  | .reg c0 c1 sector => (regDecode s.gpr.length c0 c1).isSome && decide (sector.length ≤ 3)
  | .mem width address => decide (address.toNat + width.toNat ≤ s.mem.size)

/-- The failure of an operand that does not resolve (40_cycle.md R89; 20_memory.md R37). -/
def resolveFailure : Operand → FailKind
  | .reg _ _ _ => .invalidOperand
  | .mem _ _ => .outOfBounds

/-- The operand is a sector of the register `r`. -/
def State.namesReg (s : State) (d : Operand) (r : RegName) : Bool :=
  match d with
  | .reg c0 c1 _ => regDecode s.gpr.length c0 c1 == some r
  | .mem _ _ => false

/-- The bytes an operand that resolves holds (10_state.md R17; 20_memory.md R38). -/
def State.operandBytes (s : State) : Operand → List Byte
  | .reg c0 c1 sector =>
    match regDecode s.gpr.length c0 c1 with
    | some r => slice (regBytes (s.getReg r)) (sectorBounds sector).1 (sectorBounds sector).2
    | none => []
  | .mem width address => s.mem.getBytes address.toNat width.toNat

/-- Writing the operand stores to the memory byte at `a` (20_memory.md R39). -/
def storesTo (d : Operand) (a : Nat) : Bool :=
  match d with
  | .reg _ _ _ => false
  | .mem width address => decide (address.toNat ≤ a) && decide (a < address.toNat + width.toNat)

/-- Writing the operand writes byte `j` of the register `r`. -/
def State.writesRegByte (s : State) (d : Operand) (r : RegName) (j : Nat) : Bool :=
  match d with
  | .reg c0 c1 sector =>
    regDecode s.gpr.length c0 c1 == some r && decide ((sectorBounds sector).1 ≤ j) && decide (j ≤ (sectorBounds sector).2)
  | .mem _ _ => false

/-- The state with the operand's bytes replaced by `v` (10_state.md R18; 20_memory.md R39). -/
def State.writeOperand (s : State) (d : Operand) (v : List Byte) : State :=
  match d with
  | .reg c0 c1 sector =>
    match regDecode s.gpr.length c0 c1 with
    | some r =>
      s.setReg r (regOfBytes (splice (regBytes (s.getReg r)) (sectorBounds sector).1 (sectorBounds sector).2 v))
    | none => s
  | .mem _ address => { s with mem := s.mem.putBytes address.toNat v }

/-- The state with `OF` replaced by `b` and bytes 1..7 of the Flag register kept (10_state.md R26). -/
def State.withOf (s : State) (b : Byte) : State :=
  s.setReg .fl (regOfBytes (splice (regBytes s.fl) 0 0 [b]))

end Sys2Proof.Machine
end

