-- ==== Sys2Proof/Certificates/Slice0/Obligations.lean ====
section
/-! DEFINITION. The statements for the provers: what the spec's rules say the core does. A docstring names the rule, or
the spec's own decision (92_eei_decisions.md D<n>), or the log entry a clause rests on. -/

open Sys2Proof Sys2Proof.Machine

/-! ## Encoding -/

/-- Decoding the bytes of a well-formed instruction, whatever follows them, gives it back and consumes exactly its bytes
(30_encoding.md sections 1, 3 and 4). -/
def Obligations.DecodeOfEncodeGivesInstruction : Prop :=
  ∀ (i : Instr) (rest : List Byte), i.wellFormed = true →
    decode (encode i ++ rest) = .ok i (encode i).length

/-- The operand codec's two directions (30_encoding.md section 3): decoding an encoded descriptor gives it back, and
encoding a decoded one gives the bytes back when the reserved bits of its first byte are zero. -/
def Obligations.OperandCodecIsInverse : Prop :=
  (∀ (d : Operand) (rest : List Byte), d.wellFormed = true →
    decodeOperand (listStream (encodeOperand d ++ rest)) 0 = .done d (encodeOperand d).length) ∧
  (∀ (b1 : Byte) (bs : List Byte) (d : Operand) (n : Nat),
    decodeOperand (listStream (b1 :: bs)) 0 = .done d n →
    (b1.getLsbD 7 = true → ∀ j, 2 + pathLength b1 ≤ j → j ≤ 6 → b1.getLsbD j = false) →
    encodeOperand d = (b1 :: bs).take n)

/-- Whatever bytes the decoder accepts, it gives a well-formed instruction of the length its format says, within the
bytes (30_encoding.md sections 1 and 3; 10_state.md, the last rule on sector paths). -/
def Obligations.DecodedInstructionIsWellFormed : Prop :=
  ∀ (bs : List Byte) (i : Instr) (n : Nat), decode bs = .ok i n →
    i.wellFormed = true ∧ n = i.length ∧ n ≤ bs.length

/-- 30_encoding.md R70: the encoder writes reserved bits 0; the decoder ignores them, as the two examples of the rule
show; a memory-direct first byte has no reserved bit. -/
def Obligations.ReservedBitsAreIgnored : Prop :=
  (∀ (b b' : Byte) (rest : List Byte), b.getLsbD 7 = true → b'.getLsbD 7 = true → pathLength b = pathLength b' →
    (∀ k, k < pathLength b → b.getLsbD (2 + k) = b'.getLsbD (2 + k)) →
    decodeOperand (listStream (b :: rest)) 0 = decodeOperand (listStream (b' :: rest)) 0) ∧
  (∀ (c0 c1 : Byte) (p : List Half), p.length ≤ 3 →
    ∃ b1 : Byte, encodeOperand (.reg c0 c1 p) = [b1, c0, c1] ∧
      ∀ j, 2 + p.length ≤ j → j ≤ 6 → b1.getLsbD j = false) ∧
  (∀ c0 c1 : Byte,
    decodeOperand (listStream [0xE3, c0, c1]) 0 = .done (.reg c0 c1 [.l, .l, .l]) 3 ∧
    decodeOperand (listStream [0x83, c0, c1]) 0 = .done (.reg c0 c1 [.l, .l, .l]) 3 ∧
    decodeOperand (listStream [0x89, c0, c1]) 0 = .done (.reg c0 c1 [.l]) 3 ∧
    decodeOperand (listStream [0x81, c0, c1]) 0 = .done (.reg c0 c1 [.l]) 3) ∧
  (∀ b b' a3 a2 a1 a0 : Byte, b.getLsbD 7 = false → b'.getLsbD 7 = false →
    decodeOperand (listStream [b, a3, a2, a1, a0]) 0 = decodeOperand (listStream [b', a3, a2, a1, a0]) 0 → b = b')

/-- Words written out from the encodings of the spec decode to the instructions they stand for, as in 95_test_vectors.md:
HALT, OUTU, OUTC and COUT as in P1, MOUT as in V29, STA as in V34, UADD as in V40 and V41; and a UADD that is no vector
there, of the three descriptors of V11i, V11m and V11l. -/
def Obligations.WrittenWordsDecode : Prop :=
  decode [0x00] = .ok .halt 1 ∧
  decode [0x01, 0x2A, 0x02] = .ok (.outu 42) 2 ∧
  decode [0x02, 0x0A, 0x00] = .ok (.outc 10) 2 ∧
  decode [0x03, 0x48, 0x69, 0x00, 0x01] = .ok (.cout [0x48, 0x69]) 4 ∧
  decode [0x04, 0x80, 0x70, 0x63, 0x00] = .ok (.mout (.reg 0x70 0x63 [])) 4 ∧
  decode [0x05, 0x80, 0x30, 0x30] = .ok (.sta (.reg 0x30 0x30 [])) 4 ∧
  decode [0x10, 0x01, 0x00, 0x00, 0x00, 0x20, 0x01, 0x00, 0x00, 0x00, 0x21, 0x01, 0x00, 0x00, 0x00, 0x22, 0x00] =
    .ok (.uadd (.mem 1 0x20) (.mem 1 0x21) (.mem 1 0x22)) 16 ∧
  decode [0x10, 0x80, 0x30, 0x30, 0x80, 0x30, 0x30, 0x80, 0x30, 0x31, 0x00] =
    .ok (.uadd (.reg 0x30 0x30 []) (.reg 0x30 0x30 []) (.reg 0x30 0x31 [])) 10 ∧
  decode [0x10, 0x80, 0x30, 0x30, 0x93, 0x30, 0x61, 0x9F, 0x70, 0x63] =
    .ok (.uadd (.reg 0x30 0x30 []) (.reg 0x30 0x61 [.l, .l, .h]) (.reg 0x70 0x63 [.h, .h, .h])) 10

/-! ## Registers and sectors -/

/-- The bisection algorithm of sector paths, and the range it gives each of the 15 paths (10_state.md section 1; the spec
marks the table as derived from the algorithm). -/
def Obligations.SectorRangeTable : Prop :=
  (∀ p, p.length ≤ 3 → sectorRange p = .ok (bisect p (0, 7))) ∧
  (∀ p lo hi, bisect (.h :: p) (lo, hi) = bisect p ((lo + hi) / 2 + 1, hi)) ∧
  (∀ p lo hi, bisect (.l :: p) (lo, hi) = bisect p (lo, (lo + hi) / 2)) ∧
  sectorRange [] = .ok (0, 7) ∧
  sectorRange [.l] = .ok (0, 3) ∧ sectorRange [.h] = .ok (4, 7) ∧
  sectorRange [.l, .l] = .ok (0, 1) ∧ sectorRange [.l, .h] = .ok (2, 3) ∧
  sectorRange [.h, .l] = .ok (4, 5) ∧ sectorRange [.h, .h] = .ok (6, 7) ∧
  sectorRange [.l, .l, .l] = .ok (0, 0) ∧ sectorRange [.l, .l, .h] = .ok (1, 1) ∧
  sectorRange [.l, .h, .l] = .ok (2, 2) ∧ sectorRange [.l, .h, .h] = .ok (3, 3) ∧
  sectorRange [.h, .l, .l] = .ok (4, 4) ∧ sectorRange [.h, .l, .h] = .ok (5, 5) ∧
  sectorRange [.h, .h, .l] = .ok (6, 6) ∧ sectorRange [.h, .h, .h] = .ok (7, 7)

/-- A string that is no sector path is `InvalidOperand`, and no descriptor decodes to one (10_state.md, the last rule on
sector paths, which the spec marks as derived; 30_encoding.md section 2). -/
def Obligations.MalformedPathIsInvalidOperand : Prop :=
  (∀ cs : List Char, 3 < cs.length ∨ (∃ c ∈ cs, c ≠ 'l' ∧ c ≠ 'h') →
    sectorRangeOfString cs = .error .invalidOperand) ∧
  (∀ (src : Stream) (n m : Nat) (c0 c1 : Byte) (p : List Half),
    decodeOperand src n = .done (.reg c0 c1 p) m → p.length ≤ 3)

/-- Exactly which byte pairs name which register (10_state.md section 1 and 30_encoding.md section 2, with the spec's
decisions D3 and D4): "pc", "fl", and the two lowercase hexadecimal digits of an existing register's number. -/
def Obligations.IdentifiersNameRegisters : Prop :=
  ∀ (n : Nat) (c0 c1 : Byte),
    (regDecode n c0 c1 = some .pc ↔ c0 = 0x70 ∧ c1 = 0x63) ∧
    (regDecode n c0 c1 = some .fl ↔ c0 = 0x66 ∧ c1 = 0x6C) ∧
    (∀ i, regDecode n c0 c1 = some (.gpr i) ↔
      i < n ∧
      ([0x30, 0x31, 0x32, 0x33, 0x34, 0x35, 0x36, 0x37, 0x38, 0x39, 0x61, 0x62, 0x63, 0x64, 0x65, 0x66] : List Byte)[i / 16]? = some c0 ∧
      ([0x30, 0x31, 0x32, 0x33, 0x34, 0x35, 0x36, 0x37, 0x38, 0x39, 0x61, 0x62, 0x63, 0x64, 0x65, 0x66] : List Byte)[i % 16]? = some c1)

/-- 10_state.md R17: reading a sector of a register gives the bytes lo..hi of the register, as many as the sector has. -/
def Obligations.SectorReadCopiesBytes : Prop :=
  ∀ (s : State) (r : RegName) (p : List Half), p.length ≤ 3 →
    ∃ v, s.sectorRead r p = .ok v ∧
      v.length = (sectorBounds p).2 - (sectorBounds p).1 + 1 ∧
      ∀ j, j < v.length → v[j]? = (regBytes (s.getReg r))[(sectorBounds p).1 + j]?

/-- 10_state.md R18: a sector write of the sector's length reads back, leaves the other bytes of the register, every
other register and everything else of the state as they were; of another length it is `BusWidthMismatch`. The register exists: it is one an identifier
names. -/
def Obligations.SectorWriteReadsBack : Prop :=
  ∀ (s : State) (c0 c1 : Byte) (r : RegName) (p : List Half) (v : List Byte),
    regDecode s.gpr.length c0 c1 = some r → p.length ≤ 3 →
    (v.length = (sectorBounds p).2 - (sectorBounds p).1 + 1 →
      ∃ t, s.sectorWrite r p v = .ok t ∧ t.sectorRead r p = .ok v ∧
        (∀ j, j < (sectorBounds p).1 ∨ (sectorBounds p).2 < j →
          (regBytes (t.getReg r))[j]? = (regBytes (s.getReg r))[j]?) ∧
        (∀ q, q ≠ r → t.getReg q = s.getReg q) ∧
        t.gpr.length = s.gpr.length ∧ t.mem = s.mem ∧ t.run = s.run ∧ t.out = s.out ∧ t.stop = s.stop ∧
        t.random = s.random) ∧
    (v.length ≠ (sectorBounds p).2 - (sectorBounds p).1 + 1 →
      s.sectorWrite r p v = .error .busWidthMismatch)

/-! ## Memory and the bus -/

/-- 20_memory.md R38: a read in bounds gives the bytes of the range, none for width 0, and zeros where the range is
zero; out of bounds it is `OutOfBounds`. -/
def Obligations.MemoryReadIsBounded : Prop :=
  ∀ (m : Memory) (a w : Nat),
    (a + w ≤ m.size →
      ∃ v, m.read a w = .ok v ∧ v.length = w ∧ (∀ j, j < w → v[j]? = some (m.get (a + j))) ∧
        ((∀ j, j < w → m.get (a + j) = 0) → v = List.replicate w 0)) ∧
    (m.size < a + w → m.read a w = .error .outOfBounds)

/-- 20_memory.md R39: a write in bounds with data of the declared width reads back and leaves every other byte as it
was; the bound is checked first, then the length. -/
def Obligations.MemoryWriteReadsBack : Prop :=
  ∀ (m : Memory) (a w : Nat) (v : List Byte),
    (a + w ≤ m.size → v.length = w →
      ∃ m', m.write a w v = .ok m' ∧ m'.read a w = .ok v ∧ m'.size = m.size ∧
        (∀ x, x < a ∨ a + w ≤ x → m'.get x = m.get x)) ∧
    (m.size < a + w → m.write a w v = .error .outOfBounds) ∧
    (a + w ≤ m.size → v.length ≠ w → m.write a w v = .error .busWidthMismatch)

/-- Bus contention (20_memory.md section 3, with the spec's decision D21): a write to a source bus never fails, whatever the data and its length; the content becomes a draw
of the bus's width that the data has no part in (log entry 7: the drawn bytes are free values), and the bus keeps its
width. -/
def Obligations.BusContentionNeverFails : Prop :=
  ∀ (b : Bus) (random : Nat), b.direction = .sourceOfData →
    ∃ b', (∀ v, b.write v random = .ok (b', random + b.width)) ∧
      b'.width = b.width ∧ b'.direction = .sourceOfData ∧
      ∀ j, j < b.width → b'.content[j]? = some (Config.randomByte (random + j))

/-- A write to a destination bus takes data of the bus's width and no other (20_memory.md section 3, the rule on
`Bus.write`; the spec's decision D8 says when an endpoint changes). -/
def Obligations.BusWriteChecksWidth : Prop :=
  ∀ (b : Bus) (v : List Byte) (random : Nat), b.direction = .destinationOfData →
    (v.length = b.width → ∃ b', b.write v random = .ok (b', random) ∧ b'.read = v ∧ b'.width = b.width) ∧
    (v.length ≠ b.width → b.write v random = .error .busWidthMismatch)

/-- The transaction `Memory.present` is the bounds-checked access it mediates: with a destination data bus a read of the
data bus's width, with a source data bus a write of its content, at the big-endian address on the address bus
(20_memory.md section 3; the address is the spec's decision D27). The direction of the bus a read answers with is the one
20_memory.md section 3 writes ("it returns a fresh Bus of direction `DestinationOfData`"), of which it says that the source
does not give it (91_not_in_source.md N5; 93_implementation_defined.md I15; log entry 8). -/
def Obligations.PresentMediatesAccess : Prop :=
  ∀ (m : Memory) (addr data : Bus),
    (data.direction = .destinationOfData →
      (∀ v, m.read (be addr.content) data.width = .ok v →
        ∃ b, m.present addr data = .ok (m, some b) ∧ b.read = v ∧ b.width = data.width ∧ b.direction = .destinationOfData) ∧
      (∀ k, m.read (be addr.content) data.width = .error k → m.present addr data = .error k)) ∧
    (data.direction = .sourceOfData →
      (∀ m', m.write (be addr.content) data.width data.content = .ok m' → m.present addr data = .ok (m', none)) ∧
      (∀ k, m.write (be addr.content) data.width data.content = .error k → m.present addr data = .error k))

/-! ## The cycle -/

/-- The fetch primitive (40_cycle.md section 2; 10_state.md section 2, with the spec's decision D16 for the kind): it
gives the byte at the PC and the PC one on, as 8 big-endian bytes; past the end of memory, or where the PC would pass 64
bits, it is `OutOfBounds`. -/
def Obligations.FetchReadsByteAndIncrements : Prop :=
  ∀ s : State,
    (s.pc.toNat < s.mem.size → s.pc.toNat + 1 < 2 ^ 64 →
      ∃ t, s.fetch = .ok (s.mem.get s.pc.toNat, t) ∧ regBytes t.pc = tobe 8 (s.pc.toNat + 1) ∧
        t = { s with pc := t.pc }) ∧
    (s.mem.size ≤ s.pc.toNat ∨ 2 ^ 64 ≤ s.pc.toNat + 1 → s.fetch = .error .outOfBounds)

/-- A step of a running core whose stop signal is not asserted runs the decoded instruction: it is `exec` of it at the
state at the instruction's address, the stop sample of this cycle taken (log entries 6, 11). `exec` itself moves the PC
past the instruction. -/
def Obligations.StepRunsFetchedInstruction : Prop :=
  ∀ (s : State) (i : Instr) (n : Nat), s.ready → s.sampleStop.fetchInstr = .ok i n → step s = exec i s.sampleStop

/-- When memory from the PC on holds the encoding of a well-formed instruction, the step is `exec` of that instruction
(30_encoding.md sections 1, 3 and 4; 40_cycle.md sections 1 and 2; log entries 6, 11). -/
def Obligations.StepRunsEncodedInstruction : Prop :=
  ∀ (s : State) (i : Instr), s.ready → s.mem.size < 2 ^ 64 → i.wellFormed = true →
    s.pc.toNat + i.length ≤ s.mem.size →
    (∀ k b, (encode i)[k]? = some b → s.mem.get (s.pc.toNat + k) = b) →
    step s = exec i s.sampleStop

/-- The core's decoding through its fetch primitive is the byte-list decoder on the bytes from the PC to the end of
memory: what it gives decides the step, the instruction's meaning, an illegal opcode's failure or a cut instruction's
(40_cycle.md sections 1 and 2; 60_exceptions.md section 2, with the spec's decisions D11, D14; log entries 6, 12). -/
def Obligations.StepDecodesMemoryAtPc : Prop :=
  ∀ s : State, s.ready → s.mem.size < 2 ^ 64 →
    (∀ i n, decode s.codeBytes = .ok i n → step s = exec i s.sampleStop) ∧
    (∀ op, decode s.codeBytes = .illegal op →
      step s = .next { s.sampleStop with
        pc := BitVec.ofNat 64 (s.pc.toNat + 1)
        run := .failed { kind := .invalidOperand, pc := s.pc, opcode := some op } }) ∧
    (∀ n, decode s.codeBytes = .truncated n → s.codeBytes[0]? ≠ some 0x03 →
      step s = .next { s.sampleStop with
        pc := BitVec.ofNat 64 (s.pc.toNat + n)
        run := .failed { kind := .outOfBounds, pc := s.pc, opcode := s.codeBytes[0]? } })

/-- 30_encoding.md R74: each of the 248 other opcodes ends the run with the failure `InvalidOperand`. -/
def Obligations.IllegalOpcodeFails : Prop :=
  ∀ s : State, s.ready → s.mem.size < 2 ^ 64 → s.pc.toNat < s.mem.size →
    (0x06 ≤ (s.mem.get s.pc.toNat).toNat ∧ (s.mem.get s.pc.toNat).toNat ≤ 0x0F ∨
      0x11 ≤ (s.mem.get s.pc.toNat).toNat) →
    ∃ t rec, step s = .next t ∧ t.run = .failed rec ∧ rec.kind = .invalidOperand

/-- An opcode fetch past the end of memory fails with `OutOfBounds` and a record that has no opcode; nothing else
changes (40_cycle.md section 2; 60_exceptions.md section 2, with the spec's decision D14; log entry 6). -/
def Obligations.OpcodeFetchPastEndFails : Prop :=
  ∀ s : State, s.ready → s.mem.size ≤ s.pc.toNat →
    step s = .next { s.sampleStop with run := .failed { kind := .outOfBounds, pc := s.pc, opcode := none } }

/-- A COUT with no terminator before the end of memory emits every byte it fetched and then fails, the events staying
(41_control_io.md COUT, with the spec's decisions D14 and D19; log entry 6). -/
def Obligations.UnterminatedCoutKeepsEvents : Prop :=
  ∀ s : State, s.ready → s.mem.size < 2 ^ 64 → s.pc.toNat < s.mem.size → s.mem.get s.pc.toNat = 0x03 →
    (∀ a, s.pc.toNat < a → a < s.mem.size → s.mem.get a ≠ 0) →
    step s = .next { s.sampleStop with
      pc := BitVec.ofNat 64 s.mem.size
      out := s.out ++ (s.mem.getBytes (s.pc.toNat + 1) (s.mem.size - (s.pc.toNat + 1))).map .c
      run := .failed { kind := .outOfBounds, pc := s.pc, opcode := some 0x03 } }

/-- The stop signal, sampled before the opcode fetch, cancels the run and changes nothing else, even where the cycle
would have failed (40_cycle.md section 1 and 60_exceptions.md section 3, with the spec's decision D17). -/
def Obligations.StopCancelsRun : Prop :=
  ∀ s : State, s.run = .running → s.stopAsserted = true → step s = .next { s with run := .cancelled }

/-- From a halted, failed or cancelled state the model's step answers its fault by name, and no next state (10_state.md
section 4: no further step is taken from them; the fault is the model's choice, log entry 10). -/
def Obligations.TerminalStatesTakeNoStep : Prop :=
  ∀ s : State, s.run ≠ .running → step s = .fault (.notRunning s.run)

/-- Every cycle of a running core answers a next state, and so does every instruction in every state: it completes, or
it fails, a failure being a next state too (log entry 9). STA, for one, always fails (40_cycle.md section 1;
60_exceptions.md section 4). -/
def Obligations.RunningCoreAlwaysSteps : Prop :=
  (∀ s : State, s.run = .running → ∃ t, step s = .next t) ∧ (∀ (i : Instr) (s : State), ∃ t, exec i s = .next t)

/-! ## Instructions -/

/-- 41_control_io.md R96: HALT is the byte 0x00; it halts, the PC one on and nothing else changed, and no step is taken
from the halted state. -/
def Obligations.HaltStopsCore : Prop :=
  encode .halt = [0x00] ∧
  ∀ s : State, s.fits 1 →
    exec .halt s = .next { s.atNext 1 with run := .halted } ∧
    ∀ t, step { s.atNext 1 with run := .halted } ≠ .next t

/-- 41_control_io.md R97: OUTU emits its inline byte as a number; at the last byte of memory it fails with `OutOfBounds`
and emits nothing. -/
def Obligations.OutuEmitsNumber : Prop :=
  (∀ b : Byte, encode (.outu b) = [0x01, b]) ∧
  (∀ (b : Byte) (s : State), s.fits 2 → exec (.outu b) s = .next { s.atNext 2 with out := s.out ++ [.u b] }) ∧
  (∀ s : State, s.ready → s.mem.size < 2 ^ 64 → s.pc.toNat + 1 = s.mem.size → s.mem.get s.pc.toNat = 0x01 →
    ∃ t rec, step s = .next t ∧ t.run = .failed rec ∧ rec.kind = .outOfBounds ∧ t.out = s.out)

/-- 41_control_io.md R98: OUTC emits its inline byte as a character, 0x00 included; at the last byte of memory it fails
with `OutOfBounds` and emits nothing. -/
def Obligations.OutcEmitsCharacter : Prop :=
  (∀ b : Byte, encode (.outc b) = [0x02, b]) ∧
  (∀ (b : Byte) (s : State), s.fits 2 → exec (.outc b) s = .next { s.atNext 2 with out := s.out ++ [.c b] }) ∧
  (∀ s : State, s.ready → s.mem.size < 2 ^ 64 → s.pc.toNat + 1 = s.mem.size → s.mem.get s.pc.toNat = 0x02 →
    ∃ t rec, step s = .next t ∧ t.run = .failed rec ∧ rec.kind = .outOfBounds ∧ t.out = s.out)

/-- COUT emits each byte of its string as a character, in order, without the terminator, and moves past the terminator
(41_control_io.md COUT). -/
def Obligations.CoutEmitsString : Prop :=
  ∀ (str : List Byte) (s : State), (Instr.cout str).wellFormed = true → s.fits (str.length + 2) →
    exec (.cout str) s = .next { s.atNext (str.length + 2) with out := s.out ++ str.map .c }

/-- MOUT emits the bytes of an operand that resolves, as they are when the whole instruction has been fetched
(41_control_io.md MOUT; 40_cycle.md section 3, with the spec's decision D7). -/
def Obligations.MoutEmitsOperandBytes : Prop :=
  ∀ (d : Operand) (s : State), s.resolves d = true → s.fits (1 + d.length) →
    exec (.mout d) s =
      .next { s.atNext (1 + d.length) with out := s.out ++ [.m ((s.atNext (1 + d.length)).operandBytes d)] }

/-- MOUT of the whole PC emits the 8 bytes of the address after the instruction (41_control_io.md MOUT; 40_cycle.md
section 3, with the spec's decision D7). -/
def Obligations.MoutOfPcEmitsNextAddress : Prop :=
  ∀ s : State, s.fits 4 →
    exec (.mout (.reg 0x70 0x63 [])) s = .next { s.atNext 4 with out := s.out ++ [.m (tobe 8 (s.pc.toNat + 4))] }

/-- MOUT of an operand that does not resolve fails and emits nothing: `InvalidOperand` for an identifier that names no
register, `OutOfBounds` for a range out of bounds (41_control_io.md MOUT; the spec's decisions D4, D11, D14). -/
def Obligations.MoutOfBadOperandFails : Prop :=
  (∀ (c0 c1 : Byte) (p : List Half) (s : State), regDecode s.gpr.length c0 c1 = none → s.fits 4 →
    exec (.mout (.reg c0 c1 p)) s =
      .next { s.atNext 4 with run := .failed { kind := .invalidOperand, pc := s.pc, opcode := some 0x04 } }) ∧
  (∀ (w : BitVec 7) (a : BitVec 32) (s : State), s.mem.size < a.toNat + w.toNat → s.fits 6 →
    exec (.mout (.mem w a)) s =
      .next { s.atNext 6 with run := .failed { kind := .outOfBounds, pc := s.pc, opcode := some 0x04 } })

/-- STA moves past its descriptor, whatever it names, and fails with `UnimplementedOpcode`; that failure is its whole
effect (41_control_io.md STA; the spec's decisions D13, D14). -/
def Obligations.StaFailsUnimplemented : Prop :=
  ∀ (d : Operand) (s : State), s.fits (1 + d.length) →
    exec (.sta d) s = .next { s.atNext (1 + d.length) with
      run := .failed { kind := .unimplementedOpcode, pc := s.pc, opcode := some 0x05 } }

/-- UADD of operands that resolve, all of width n, completes: the output holds the low n bytes of the exact sum of the
two inputs as they were after the fetches, `OF` the carry unless the output overlaps it (then the output's byte stays),
and the run state and the output log are as before (42_alu.md UADD; the spec's decisions D6 to D10). -/
def Obligations.UaddWritesSumAndCarry : Prop :=
  ∀ (d1 d2 d3 : Operand) (s : State) (n : Nat),
    s.resolves d1 = true → s.resolves d2 = true → s.resolves d3 = true →
    operandWidth d1 = n → operandWidth d2 = n → operandWidth d3 = n →
    s.fits (1 + d1.length + d2.length + d3.length) →
    let x := be ((s.atNext (1 + d1.length + d2.length + d3.length)).operandBytes d1)
    let y := be ((s.atNext (1 + d1.length + d2.length + d3.length)).operandBytes d2)
    ∃ t, exec (.uadd d1 d2 d3) s = .next t ∧
      t.operandBytes d3 = tobe n ((x + y) % 256 ^ n) ∧
      (s.writesRegByte d3 .fl 0 = false → t.of = BitVec.ofNat 8 ((x + y) / 256 ^ n)) ∧
      t.run = s.run ∧ t.out = s.out

/-- UADD's frame: memory outside the bytes of a memory output, every register byte but the output's, `OF` and the PC's,
the log, the host's signal, the register count and the capacity are as before; the PC is the address after the
instruction but for the bytes an output sector of the PC writes (42_alu.md UADD; 10_state.md section 1; 20_memory.md
section 2; the spec's decisions D8, D11). The bytes stored to are those of the output operand, as `storesTo` and
`writesRegByte` compute them. -/
def Obligations.UaddFrame : Prop :=
  ∀ (d1 d2 d3 : Operand) (s t : State), s.fits (1 + d1.length + d2.length + d3.length) →
    exec (.uadd d1 d2 d3) s = .next t →
    (∀ a, storesTo d3 a = false → t.mem.get a = s.mem.get a) ∧
    (∀ r j, s.writesRegByte d3 r j = false → ¬(r = .fl ∧ j = 0) → r ≠ .pc →
      (regBytes (t.getReg r))[j]? = (regBytes (s.getReg r))[j]?) ∧
    (∀ j, s.writesRegByte d3 .pc j = false →
      (regBytes t.pc)[j]? = (tobe 8 (s.pc.toNat + (1 + d1.length + d2.length + d3.length)))[j]?) ∧
    t.out = s.out ∧ t.stop = s.stop ∧ t.random = s.random ∧
    t.mem.size = s.mem.size ∧ t.gpr.length = s.gpr.length

/-- Where UADD fails: the first condition in execution order gives the kind, the PC is past the instruction, and neither
`OF` nor the output nor anything else is written (42_alu.md UADD; 60_exceptions.md section 2; the spec's decisions D4,
D11, D12, D14). -/
def Obligations.UaddFailsInOrder : Prop :=
  ∀ (d1 d2 d3 : Operand) (s : State) (k : FailKind), s.fits (1 + d1.length + d2.length + d3.length) →
    (s.resolves d1 = false ∧ k = resolveFailure d1 ∨
     s.resolves d1 = true ∧ s.resolves d2 = false ∧ k = resolveFailure d2 ∨
     s.resolves d1 = true ∧ s.resolves d2 = true ∧ s.resolves d3 = false ∧ k = resolveFailure d3 ∨
     s.resolves d1 = true ∧ s.resolves d2 = true ∧ s.resolves d3 = true ∧
       operandWidth d2 ≠ operandWidth d1 ∧ k = .invalidOperand ∨
     s.resolves d1 = true ∧ s.resolves d2 = true ∧ s.resolves d3 = true ∧
       operandWidth d2 = operandWidth d1 ∧ operandWidth d3 ≠ operandWidth d1 ∧ k = .busWidthMismatch) →
    exec (.uadd d1 d2 d3) s = .next { s.atNext (1 + d1.length + d2.length + d3.length) with
      run := .failed { kind := k, pc := s.pc, opcode := some 0x10 } }

/-- UADD is commutative: exchanging inputs that both resolve changes nothing (42_alu.md, the rule on the laws of UADD,
which the spec marks as derived). -/
def Obligations.UaddIsCommutative : Prop :=
  ∀ (d1 d2 d3 : Operand) (s : State), s.resolves d1 = true → s.resolves d2 = true →
    exec (.uadd d1 d2 d3) s = exec (.uadd d2 d1 d3) s

/-- Adding zero copies the other input and clears `OF` (42_alu.md, the rule on the laws of UADD, which the spec marks as
derived; the spec's decision D9). -/
def Obligations.UaddOfZeroCopies : Prop :=
  ∀ (d1 d2 d3 : Operand) (s : State),
    s.resolves d1 = true → s.resolves d2 = true → s.resolves d3 = true →
    operandWidth d2 = operandWidth d1 → operandWidth d3 = operandWidth d1 →
    s.fits (1 + d1.length + d2.length + d3.length) →
    be ((s.atNext (1 + d1.length + d2.length + d3.length)).operandBytes d2) = 0 →
    ∃ t, exec (.uadd d1 d2 d3) s = .next t ∧
      t.operandBytes d3 = (s.atNext (1 + d1.length + d2.length + d3.length)).operandBytes d1 ∧
      (s.writesRegByte d3 .fl 0 = false → t.of = 0)

/-- A UADD whose output is the whole PC is a jump to the sum modulo 2^64 (40_cycle.md section 4, the rule on control
transfer, which the spec marks as derived; the spec's decisions D7, D8). -/
def Obligations.UaddToPcJumps : Prop :=
  ∀ (d1 d2 : Operand) (s : State),
    s.resolves d1 = true → s.resolves d2 = true → operandWidth d1 = 8 → operandWidth d2 = 8 →
    s.fits (4 + d1.length + d2.length) →
    ∃ t, exec (.uadd d1 d2 (.reg 0x70 0x63 [])) s = .next t ∧
      t.pc.toNat = (be ((s.atNext (4 + d1.length + d2.length)).operandBytes d1) +
        be ((s.atNext (4 + d1.length + d2.length)).operandBytes d2)) % 2 ^ 64

/-- The byte of the sum that a UADD stores to a memory output is what the next fetch of that byte reads: byte `j` of the
low bytes of the sum of its inputs as they were after the fetches (20_memory.md section 5, the rule on instruction-fetch
coherence, which the spec marks as derived; 42_alu.md UADD; the spec's decisions D6 to D8). -/
def Obligations.StoredByteIsFetched : Prop :=
  ∀ (d1 d2 : Operand) (w : BitVec 7) (a : BitVec 32) (s t : State) (j : Nat),
    s.mem.size < 2 ^ 64 → j < w.toNat → s.fits (6 + d1.length + d2.length) →
    exec (.uadd d1 d2 (.mem w a)) s = .next t → t.run = .running →
    let x := be ((s.atNext (6 + d1.length + d2.length)).operandBytes d1)
    let y := be ((s.atNext (6 + d1.length + d2.length)).operandBytes d2)
    ∃ b u, (tobe w.toNat ((x + y) % 256 ^ w.toNat))[j]? = some b ∧
      { t with pc := BitVec.ofNat 64 (a.toNat + j) : State }.fetch = .ok (b, u)

/-- The frame of the six other instructions: HALT, OUTU, OUTC, COUT, MOUT and STA leave the Flag register, every general
register, every byte of memory, the capacity and the host's signal as they were, and move the PC past themselves; HALT
and STA leave the log as it was, OUTU, OUTC and COUT the run state (41_control_io.md). -/
def Obligations.NonArithmeticFrame : Prop :=
  ∀ (i : Instr) (s t : State), (∀ d1 d2 d3, i ≠ .uadd d1 d2 d3) → s.fits i.length → exec i s = .next t →
    t.pc = BitVec.ofNat 64 (s.pc.toNat + i.length) ∧ t.fl = s.fl ∧ t.gpr = s.gpr ∧
    (∀ a, t.mem.get a = s.mem.get a) ∧ t.mem.size = s.mem.size ∧ t.stop = s.stop ∧ t.random = s.random ∧
    (i = .halt ∨ (∃ d, i = .sta d) → t.out = s.out) ∧
    ((∃ b, i = .outu b) ∨ (∃ b, i = .outc b) ∨ (∃ str, i = .cout str) → t.run = s.run)

/-! ## The whole machine -/

/-- Every step keeps the invariant: memory in canonical form within a capacity below 2^64, and at most 256 general
registers (20_memory.md section 2; 10_state.md section 1; the canonical form is the model's, log entry 5). -/
def Obligations.StepKeepsInvariant : Prop :=
  ∀ s t : State, s.Inv → step s = .next t → t.Inv

/-- The invariant holds of the state after reset. -/
def Obligations.ResetMeetsInvariant : Prop :=
  State.reset.Inv

/-- The capacity of memory and the number of general registers are fixed for the life of the core (20_memory.md section
2; 10_state.md section 1). -/
def Obligations.CapacityAndRegisterCountAreFixed : Prop :=
  ∀ s t : State, step s = .next t → t.mem.size = s.mem.size ∧ t.gpr.length = s.gpr.length

/-- The output log only grows, and only in a cycle whose opcode is OUTU's, OUTC's, COUT's or MOUT's (10_state.md section
4). -/
def Obligations.OutputLogOnlyGrows : Prop :=
  ∀ s t : State, step s = .next t →
    (∃ es, t.out = s.out ++ es) ∧
    (t.out ≠ s.out → ∃ op, s.codeStream 0 = some op ∧ (op = 0x01 ∨ op = 0x02 ∨ op = 0x03 ∨ op = 0x04))

/-- Only UADD changes the Flag register, a general register or a byte of memory (10_state.md sections 1 and 3;
41_control_io.md; 42_alu.md). -/
def Obligations.OnlyUaddWritesData : Prop :=
  ∀ s t : State, step s = .next t → s.codeStream 0 ≠ some 0x10 → t.fl = s.fl ∧ t.gpr = s.gpr ∧ t.mem = s.mem

/-- Failures are precise: a cycle that fails has written no register but the PC and no byte of memory, its record has the
address of the instruction and the opcode fetched there, the PC has moved only over bytes fetched, and only a COUT has
emitted anything (60_exceptions.md section 2; the spec's decisions D11, D14). -/
def Obligations.FailuresArePrecise : Prop :=
  ∀ (s t : State) (rec : FailRecord), s.mem.size < 2 ^ 64 → step s = .next t → t.run = .failed rec →
    t.fl = s.fl ∧ t.gpr = s.gpr ∧ t.mem = s.mem ∧ rec.pc = s.pc ∧ rec.opcode = s.codeStream 0 ∧
    (∃ n, t.pc.toNat = s.pc.toNat + n ∧ ∀ k, k < n → (s.codeStream k).isSome = true) ∧
    (s.codeStream 0 ≠ some 0x03 → t.out = s.out)

/-- No cycle reaches bus contention: how far the random source has come, and so what it delivers, has no part in a step,
and no step draws from it (20_memory.md section 3, the rule that contention is unreachable, which the spec marks as
derived; the spec's decision D20; log entry 7). -/
def Obligations.RandomSourceIsNeverUsed : Prop :=
  ∀ (s t : State) (random : Nat), step s = .next t →
    t.random = s.random ∧ step { s with random := random } = .next { t with random := random }

/-- What reset leaves, of the values the spec gives: the PC 0, `OF` 0x00, the run Running, the log empty, the stop signal
not asserted (10_state.md section 7). The other fields of `State.reset` are the model's choice (log entries 1 to 5) and
stand in no clause. -/
def Obligations.ResetStateAsGiven : Prop :=
  regBytes State.reset.pc = tobe 8 0 ∧ State.reset.of = 0x00 ∧ State.reset.run = .running ∧ State.reset.out = [] ∧
    State.reset.stopAsserted = false

/-- Construction from accepted inputs leaves the PC 0, `OF` 0x00, bytes 1..7 of the Flag register and the general
registers those the host gave, Running, an empty log, the stop signal not asserted, the image at address 0, the fill after
it, and the invariant (70_reset_and_hazards.md section 1; 10_state.md section 7; the spec's decisions D1, D2, D5). The
canonical form of memory in the invariant and the fill that must fit are the model's (log entry 5), the seed's place in
the state is too (log entry 7). -/
def Obligations.ConstructionLoadsImage : Prop :=
  ∀ c : Construction, c.accepted = true →
    ∃ s, construct c = some s ∧ s.pc.toNat = 0 ∧ s.of = 0x00 ∧
      regBytes s.fl = 0x00 :: tobe 7 c.flInitRest.toNat ∧ s.run = .running ∧ s.out = [] ∧
      s.stopAsserted = false ∧ s.gpr = c.gprInit ∧ s.random = c.seed ∧ s.mem.size = c.capacity ∧
      (∀ a b, c.image[a]? = some b → s.mem.get a = b) ∧
      (∀ a b, c.fill[a]? = some b → s.mem.get (c.image.length + a) = b) ∧ s.Inv

/-- Construction is refused for an image longer than memory, a capacity of 2^64 or more, or more than 256 registers
(70_reset_and_hazards.md section 1; the spec's decisions D1, D3, D28). -/
def Obligations.ConstructionRefusesBadInputs : Prop :=
  ∀ c : Construction, c.capacity < c.image.length ∨ 2 ^ 64 ≤ c.capacity ∨ 256 < c.gprInit.length → construct c = none

/-- The four failure kinds have the codes 1 to 4 of the spec's own numbering (60_exceptions.md section 1; the spec's
decision D15). -/
def Obligations.FailureKindCodes : Prop :=
  failCode .outOfBounds = 1 ∧ failCode .invalidOperand = 2 ∧ failCode .busWidthMismatch = 3 ∧
    failCode .unimplementedOpcode = 4

/-! ## The run and the host -/

/-- `Run()` (40_cycle.md section 1; its end and its result are those of 40_cycle.md section 5, the spec's decision D25):
with some fuel it returns `r` exactly when `r` is the run state, the log and the state after the first `n` cycles, `n` at
most the fuel, at the first state where the run state is not Running. That it returns nothing where the fuel ends first is
the model's form (log entry 17). -/
def Obligations.RunReturnsFirstEndedState : Prop :=
  ∀ (s : State) (fuel : Nat) (r : RunResult), s.runLoop fuel = some r ↔
    ∃ n t, n ≤ fuel ∧ s.afterCycles n = some t ∧ t.run ≠ .running ∧
      (∀ m, m < n → ∃ u, s.afterCycles m = some u ∧ u.run = .running) ∧
      r.run = t.run ∧ r.out = t.out ∧ r.final = t

/-- The result of a run does not depend on the fuel that reached it (40_cycle.md section 5, the spec's decision D25: the
definition does not say what an executor does with its fuel; log entry 17). -/
def Obligations.RunResultIgnoresFuel : Prop :=
  ∀ (s : State) (r r' : RunResult), s.runsTo r → s.runsTo r' → r = r'

/-- The stop signal bounds every run: when the sample of the `n`-th coming cycle (0 the first) is asserted, the run ends
within `n + 1` cycles, cancelled unless it had halted or failed before (40_cycle.md section 1, with the spec's decision D17;
70_reset_and_hazards.md section 4; the samples are those of log entry 6). -/
def Obligations.AssertedStopEndsRun : Prop :=
  ∀ (s : State) (n : Nat), s.run = .running → s.stop[n]? = some true →
    ∃ r, s.runLoop (n + 1) = some r ∧ (r.run = .halted ∨ (∃ rec, r.run = .failed rec) ∨ r.run = .cancelled)

/-- A run whose stop signal is never asserted does not end cancelled: it halts or fails, if it ends (40_cycle.md section
5, with the spec's decision D17; the samples are those of log entry 6). -/
def Obligations.UnassertedStopNeverCancels : Prop :=
  ∀ (s : State) (r : RunResult), s.run = .running → (∀ b ∈ s.stop, b = false) → s.runsTo r →
    r.run = .halted ∨ ∃ rec, r.run = .failed rec

/-- Every core the host may construct can be stopped before its first cycle, whatever its program: the observation of a
program has a cancelled result in which the log is empty and the PC is 0 (40_cycle.md section 5, with the spec's decisions
D17, D25; log entry 6). -/
def Obligations.EveryProgramCanBeCancelled : Prop :=
  ∀ c : Construction, c.accepted = true →
    ∃ r, observation c.image c.memSize c.gprInit.length r ∧ r.run = .cancelled ∧ r.out = [] ∧ r.final.pc.toNat = 0

/-- What the host may observe of a program: the run has ended, its run state and log are those of the final state, and
the final state has the registers and the capacity that were asked for and meets the invariant (40_cycle.md section 5;
10_state.md sections 1 and 4; 20_memory.md section 2; the spec's decisions D1, D25; the canonical form of memory in the
invariant is the model's, log entry 5). -/
def Obligations.ObservedResultsAreEndedRuns : Prop :=
  ∀ (image : List Byte) (memSize : Option Nat) (nGpr : Nat) (r : RunResult), observation image memSize nGpr r →
    r.run ≠ .running ∧ r.run = r.final.run ∧ r.out = r.final.out ∧ r.final.gpr.length = nGpr ∧
      r.final.mem.size = memSize.getD image.length ∧ r.final.Inv

/-- Whatever the host's `RENDER`, a step leaves what the sink has received in place and adds the text of the events it
emitted, in order (40_cycle.md section 5; 10_state.md section 4, with the spec's decision D18; log entry 14). -/
def Obligations.RenderedTextOnlyGrows : Prop :=
  ∀ (render : Render) (s t : State), step s = .next t →
    ∃ es, t.out = s.out ++ es ∧ renderLog render t.out = renderLog render s.out ++ renderLog render es
end

