-- ==== Sys2Proof/Laws/Bytes.lean ====
section
/-! SUPPORT. Big-endian numbers and byte sequences: lengths, the two round trips, and slices of a sequence. -/

namespace Sys2Proof

@[simp] theorem tobe_length (n x : Nat) : (tobe n x).length = n := by
  induction n with
  | zero => rfl
  | succ n ih => simp [tobe, ih]

theorem be_lt (bs : List Byte) : be bs < 256 ^ bs.length := by
  induction bs with
  | nil => simp [be]
  | cons b bs ih =>
    have hb : b.toNat ≤ 255 := by have := b.isLt; omega
    have : 256 ^ bs.length * b.toNat ≤ 256 ^ bs.length * 255 := Nat.mul_le_mul_left _ hb
    simp only [be, List.length_cons, Nat.pow_succ]
    omega

theorem be_tobe (n x : Nat) : be (tobe n x) = x % 256 ^ n := by
  induction n with
  | zero => simp [tobe, be, Nat.mod_one]
  | succ n ih =>
    have hmul : x % 256 ^ (n + 1) = x % 256 ^ n + 256 ^ n * (x / 256 ^ n % 256) := by
      rw [Nat.pow_succ, Nat.mod_mul]
    simp only [tobe, be, tobe_length, ih, BitVec.toNat_ofNat, hmul]
    rw [Nat.add_comm]

theorem be_tobe_of_lt {n x : Nat} (h : x < 256 ^ n) : be (tobe n x) = x := by
  rw [be_tobe, Nat.mod_eq_of_lt h]

theorem tobe_add_mul (n x k : Nat) : tobe n (x + k * 256 ^ n) = tobe n x := by
  induction n generalizing k with
  | zero => rfl
  | succ n ih =>
    have hp : 0 < 256 ^ n := Nat.pow_pos (by decide)
    have e : x + k * 256 ^ (n + 1) = x + (k * 256) * 256 ^ n := by rw [Nat.pow_succ]; ring
    simp only [tobe]
    rw [e, ih, Nat.add_mul_div_right _ _ hp]
    congr 1
    apply BitVec.eq_of_toNat_eq
    simp [BitVec.toNat_ofNat]

theorem tobe_mod (n x : Nat) : tobe n (x % 256 ^ n) = tobe n x := by
  conv_rhs => rw [← Nat.mod_add_div x (256 ^ n), Nat.mul_comm (256 ^ n)]
  rw [tobe_add_mul]

theorem tobe_be (bs : List Byte) : tobe bs.length (be bs) = bs := by
  induction bs with
  | nil => rfl
  | cons b bs ih =>
    have hp : 0 < 256 ^ bs.length := Nat.pow_pos (by decide)
    have hlt := be_lt bs
    have hd : (256 ^ bs.length * b.toNat + be bs) / 256 ^ bs.length = b.toNat := by
      rw [Nat.mul_add_div hp, Nat.div_eq_of_lt hlt, Nat.add_zero]
    simp only [be, List.length_cons, tobe, hd]
    rw [Nat.add_comm, Nat.mul_comm, tobe_add_mul, ih]
    simp

theorem be_injective {xs ys : List Byte} (hl : xs.length = ys.length) (h : be xs = be ys) : xs = ys := by
  rw [← tobe_be xs, ← tobe_be ys, hl, h]

@[simp] theorem regBytes_length (r : Reg) : (regBytes r).length = 8 :=
  tobe_length 8 _

@[simp] theorem be_regBytes (r : Reg) : be (regBytes r) = r.toNat :=
  be_tobe_of_lt (by simpa using r.isLt)

@[simp] theorem regOfBytes_regBytes (r : Reg) : regOfBytes (regBytes r) = r := by
  simp [regOfBytes]

theorem regBytes_regOfBytes {bs : List Byte} (h : bs.length = 8) : regBytes (regOfBytes bs) = bs := by
  have hlt := be_lt bs
  rw [h] at hlt
  have : be bs % 2 ^ 64 = be bs := Nat.mod_eq_of_lt (by simpa using hlt)
  simp only [regBytes, regOfBytes, BitVec.toNat_ofNat, this]
  rw [← h, tobe_be]

theorem regBytes_injective {r q : Reg} (h : regBytes r = regBytes q) : r = q := by
  rw [← regOfBytes_regBytes r, h, regOfBytes_regBytes]

theorem slice_length {s : List Byte} {lo hi : Nat} (h1 : lo ≤ hi) (h2 : hi < s.length) :
    (slice s lo hi).length = hi - lo + 1 := by
  simp only [slice, List.length_take, List.length_drop]
  omega

theorem splice_length {s v : List Byte} {lo hi : Nat} (h1 : lo ≤ hi) (h2 : hi < s.length)
    (hv : v.length = hi - lo + 1) : (splice s lo hi v).length = s.length := by
  simp only [splice, List.length_append, List.length_take, List.length_drop, hv]
  omega

theorem slice_splice {s v : List Byte} {lo hi : Nat} (h1 : lo ≤ hi) (h2 : hi < s.length)
    (hv : v.length = hi - lo + 1) : slice (splice s lo hi v) lo hi = v := by
  have hl : (s.take lo).length = lo := by simp; omega
  simp only [slice, splice, List.append_assoc]
  rw [List.drop_append_of_le_length (by omega), List.drop_of_length_le (by omega), List.nil_append,
    List.take_append_of_le_length (by omega), List.take_of_length_le (by omega)]

theorem splice_getElem?_outside {s v : List Byte} {lo hi j : Nat} (h1 : lo ≤ hi) (h2 : hi < s.length)
    (hv : v.length = hi - lo + 1) (hj : j < lo ∨ hi < j) : (splice s lo hi v)[j]? = s[j]? := by
  have hl : (s.take lo).length = lo := by simp; omega
  rcases hj with hj | hj
  · simp only [splice, List.append_assoc]
    rw [List.getElem?_append_left (by omega), List.getElem?_take_of_lt hj]
  · simp only [splice]
    rw [List.getElem?_append_right (by simp [hv]; omega), List.getElem?_drop]
    congr 1
    simp only [List.length_append, hl, hv]
    omega

theorem splice_getElem?_inside {s v : List Byte} {lo hi j : Nat} (h1 : lo ≤ hi) (h2 : hi < s.length)
    (hv : v.length = hi - lo + 1) (hj : lo ≤ j ∧ j ≤ hi) : (splice s lo hi v)[j]? = v[j - lo]? := by
  have hl : (s.take lo).length = lo := by simp; omega
  simp only [splice, List.append_assoc]
  rw [List.getElem?_append_right (by omega), List.getElem?_append_left (by omega), hl]

end Sys2Proof
end

