-- ==== Sys2Proof/Laws/Memory.lean ====
section
/-! SUPPORT. Memory: a byte reads back what was written to it and every other byte is left alone, and every memory
operation keeps the canonical form. -/

namespace Sys2Proof.Machine

/-! ## One cell -/

theorem getCell_eraseCell (a x : Nat) (cs : List Host.Cell) :
    getCell x (eraseCell a cs) = if x = a then Config.unlistedByte else getCell x cs := by
  induction cs with
  | nil => simp [eraseCell, getCell]
  | cons c cs ih =>
    simp only [eraseCell] at ih
    by_cases hc : c.1 = a
    · simp only [eraseCell, List.filter_cons, hc, bne_self_eq_false, Bool.false_eq_true, if_false, ih, getCell]
      by_cases hx : x = a
      · simp [hx]
      · rw [if_neg hx, if_neg (Ne.symm hx), if_neg hx]
    · simp only [eraseCell, List.filter_cons, bne_iff_ne.mpr hc, if_true, getCell, ih]
      by_cases hx : x = a
      · subst hx; simp [hc]
      · simp [hx]

theorem getCell_insertCell (a x : Nat) (b : Byte) (cs : List Host.Cell) (h : ∀ c ∈ cs, c.1 ≠ a) :
    getCell x (insertCell a b cs) = if x = a then b else getCell x cs := by
  induction cs with
  | nil => simp [insertCell, getCell, eq_comm]
  | cons c cs ih =>
    have hc : c.1 ≠ a := h c (by simp)
    by_cases hlt : c.1 < a
    · simp only [insertCell, hlt, if_true, getCell, ih (fun d hd => h d (by simp [hd]))]
      by_cases hx : x = a
      · subst hx; simp [hc]
      · simp [hx]
    · simp [insertCell, hlt, getCell, eq_comm]

theorem not_mem_eraseCell (a : Nat) (cs : List Host.Cell) : ∀ c ∈ eraseCell a cs, c.1 ≠ a := by
  intro c hc
  simpa using (List.mem_filter.mp hc).2

/-- A written cell reads the byte written; every other cell is as before. -/
theorem getCell_putCell (a x : Nat) (b : Byte) (cs : List Host.Cell) :
    getCell x (putCell a b cs) = if x = a then b else getCell x cs := by
  unfold putCell
  split
  · next hb => rw [getCell_eraseCell, hb]
  · rw [getCell_insertCell _ _ _ _ (not_mem_eraseCell a cs), getCell_eraseCell]
    split <;> simp_all

theorem mem_insertCell {a : Nat} {b : Byte} {cs : List Host.Cell} {c : Host.Cell} :
    c ∈ insertCell a b cs → c = (a, b) ∨ c ∈ cs := by
  induction cs with
  | nil => simp [insertCell]
  | cons d cs ih =>
    unfold insertCell
    split
    · rintro h
      rcases List.mem_cons.mp h with h | h
      · exact .inr (by simp [h])
      · exact (ih h).imp_right (fun h => by simp [h])
    · rintro h
      rcases List.mem_cons.mp h with h | h
      · exact .inl h
      · exact .inr h

theorem pairwise_insertCell {a : Nat} {b : Byte} {cs : List Host.Cell}
    (h : cs.Pairwise (fun c d => c.1 < d.1)) (hne : ∀ c ∈ cs, c.1 ≠ a) :
    (insertCell a b cs).Pairwise (fun c d => c.1 < d.1) := by
  induction cs with
  | nil => simp [insertCell]
  | cons d cs ih =>
    have ⟨hd, hcs⟩ := List.pairwise_cons.mp h
    unfold insertCell
    split
    · next hlt =>
      refine List.pairwise_cons.mpr ⟨fun c hc => ?_, ih hcs (fun c hc => hne c (by simp [hc]))⟩
      rcases mem_insertCell hc with rfl | hc
      · exact hlt
      · exact hd c hc
    · next hlt =>
      have hda : a < d.1 := by have := hne d (by simp); omega
      refine List.pairwise_cons.mpr ⟨fun c hc => ?_, h⟩
      rcases List.mem_cons.mp hc with rfl | hc
      · exact hda
      · exact Nat.lt_trans hda (hd c hc)

theorem pairwise_putCell {a : Nat} {b : Byte} {cs : List Host.Cell} (h : cs.Pairwise (fun c d => c.1 < d.1)) :
    (putCell a b cs).Pairwise (fun c d => c.1 < d.1) := by
  unfold putCell
  split
  · exact h.filter _
  · exact pairwise_insertCell (h.filter _) (not_mem_eraseCell a cs)

theorem mem_putCell {a : Nat} {b : Byte} {cs : List Host.Cell} {c : Host.Cell} (h : c ∈ putCell a b cs) :
    (c = (a, b) ∧ b ≠ Config.unlistedByte) ∨ c ∈ cs := by
  unfold putCell at h
  split at h
  · exact .inr (List.mem_filter.mp h).1
  · next hb =>
    rcases mem_insertCell h with h | h
    · exact .inl ⟨h, hb⟩
    · exact .inr (List.mem_filter.mp h).1

/-! ## Bytes of memory -/

@[simp] theorem Memory.put_size (m : Memory) (a : Nat) (b : Byte) : (m.put a b).size = m.size := rfl

@[simp] theorem Memory.putBytes_size (m : Memory) (a : Nat) (v : List Byte) : (m.putBytes a v).size = m.size := by
  induction v generalizing m a with
  | nil => rfl
  | cons b bs ih => simp [Memory.putBytes, ih]

theorem Memory.get_put (m : Memory) (a x : Nat) (b : Byte) :
    (m.put a b).get x = if x = a then b else m.get x :=
  getCell_putCell a x b m.cells

/-- A written range reads the bytes written; every byte outside it is as before. -/
theorem Memory.get_putBytes (m : Memory) (a x : Nat) (v : List Byte) :
    (m.putBytes a v).get x = if a ≤ x ∧ x < a + v.length then v.getD (x - a) 0 else m.get x := by
  induction v generalizing m a with
  | nil => simp [Memory.putBytes]
  | cons b bs ih =>
    rw [Memory.putBytes, ih, Memory.get_put]
    by_cases hx : x = a
    · subst hx; simp
    · by_cases hin : a + 1 ≤ x ∧ x < a + 1 + bs.length
      · have e : x - a = (x - (a + 1)) + 1 := by omega
        have : a ≤ x ∧ x < a + (b :: bs).length := by simp; omega
        rw [if_pos hin, if_pos this, e]
        rfl
      · have : ¬(a ≤ x ∧ x < a + (b :: bs).length) := by simp; omega
        rw [if_neg hin, if_neg this, if_neg hx]

theorem Memory.get_putBytes_outside (m : Memory) {a x : Nat} {v : List Byte} (h : x < a ∨ a + v.length ≤ x) :
    (m.putBytes a v).get x = m.get x := by
  rw [Memory.get_putBytes, if_neg (by omega)]

@[simp] theorem Memory.getBytes_length (m : Memory) (a w : Nat) : (m.getBytes a w).length = w := by
  simp [Memory.getBytes]

theorem Memory.getBytes_putBytes (m : Memory) (a : Nat) (v : List Byte) :
    (m.putBytes a v).getBytes a v.length = v := by
  apply List.ext_getElem (by simp)
  intro j h1 h2
  have hj : j < v.length := h2
  simp [Memory.getBytes, Memory.get_putBytes, hj]

/-! ## The canonical form -/

theorem Memory.put_wf {m : Memory} {a : Nat} (b : Byte) (h : m.wf) (ha : a < m.size) : (m.put a b).wf := by
  refine ⟨pairwise_putCell h.1, fun c hc => ?_, h.2.2⟩
  rcases mem_putCell hc with ⟨rfl, hb⟩ | hc
  · exact ⟨ha, hb⟩
  · exact h.2.1 c hc

theorem Memory.putBytes_wf {m : Memory} {a : Nat} {v : List Byte} (h : m.wf) (ha : a + v.length ≤ m.size) :
    (m.putBytes a v).wf := by
  induction v generalizing m a with
  | nil => exact h
  | cons b bs ih =>
    simp only [List.length_cons] at ha
    exact ih (Memory.put_wf b h (by omega)) (by simp; omega)

/-- What a bounds-checked read can answer (20_memory.md R37, R38). -/
theorem Memory.read_cases (m : Memory) (a w : Nat) :
    (a + w ≤ m.size ∧ m.read a w = .ok (m.getBytes a w)) ∨ (m.size < a + w ∧ m.read a w = .error .outOfBounds) := by
  by_cases h : a + w ≤ m.size
  · exact .inl ⟨h, by simp [Memory.read, Memory.inBounds, h]⟩
  · exact .inr ⟨by omega, by simp [Memory.read, Memory.inBounds, h]⟩

/-- What a bounds-checked write that succeeds does (20_memory.md R37, R39). -/
theorem Memory.write_ok {m m' : Memory} {a w : Nat} {v : List Byte} (h : m.write a w v = .ok m') :
    a + w ≤ m.size ∧ v.length = w ∧ m' = m.putBytes a v := by
  unfold Memory.write at h
  split at h
  · next hb =>
    split at h
    · next hv => exact ⟨by simpa [Memory.inBounds] using hb, hv, by simpa using h.symm⟩
    · simp at h
  · simp at h

/-- A bounds-checked write keeps the canonical form. -/
theorem Memory.write_wf {m m' : Memory} {a w : Nat} {v : List Byte} (hm : m.wf) (h : m.write a w v = .ok m') :
    m'.wf := by
  obtain ⟨hb, hv, rfl⟩ := Memory.write_ok h
  exact Memory.putBytes_wf hm (by omega)

theorem reset_mem_wf : State.reset.mem.wf := by
  refine ⟨List.Pairwise.nil, fun c hc => ?_, by decide⟩
  simp [State.reset] at hc

end Sys2Proof.Machine
end

