-- ==== Sys2Proof/Laws/Bus.lean ====
section
/-! SUPPORT. The bus's projections, and the memory access each form of `Memory.present` mediates (20_memory.md R44,
R46). -/

namespace Sys2Proof.Machine

@[simp] theorem Bus.source_width (v : List Byte) : (Bus.source v).width = v.length := rfl
@[simp] theorem Bus.source_read (v : List Byte) : (Bus.source v).read = v := rfl
@[simp] theorem Bus.source_direction (v : List Byte) : (Bus.source v).direction = .sourceOfData := rfl
@[simp] theorem Bus.destination_width (v : List Byte) : (Bus.destination v).width = v.length := rfl
@[simp] theorem Bus.destination_read (v : List Byte) : (Bus.destination v).read = v := rfl
@[simp] theorem Bus.destination_direction (v : List Byte) : (Bus.destination v).direction = .destinationOfData := rfl
@[simp] theorem Bus.request_width (w : Nat) : (Bus.request w).width = w := by simp [Bus.request]
@[simp] theorem Bus.request_direction (w : Nat) : (Bus.request w).direction = .destinationOfData := rfl
@[simp] theorem drawBytes_length (random w : Nat) : (drawBytes random w).length = w := by simp [drawBytes]

/-- A read request is `MemRead`, its bytes on a fresh bus; memory is as before. -/
theorem Memory.present_request (m : Memory) (addr : List Byte) (w : Nat) :
    m.present (.source addr) (.request w) =
      if be addr + w ≤ m.size then .ok (m, some (.destination (m.getBytes (be addr) w))) else .error .outOfBounds := by
  simp only [Memory.present, Bus.request_direction, Bus.source_read, Bus.request_width]
  rcases m.read_cases (be addr) w with ⟨h, e⟩ | ⟨h, e⟩
  · rw [e, if_pos h]
  · rw [e, if_neg (by omega)]

/-- A write request is `MemWrite` of the width of its data, and answers no bus. -/
theorem Memory.present_source (m : Memory) (addr v : List Byte) :
    m.present (.source addr) (.source v) =
      if be addr + v.length ≤ m.size then .ok (m.putBytes (be addr) v, none) else .error .outOfBounds := by
  simp only [Memory.present, Bus.source_direction, Bus.source_read, Bus.source_width, Memory.write, Memory.inBounds]
  by_cases h : be addr + v.length ≤ m.size <;> simp [h]

/-- What a write of a destination bus can answer (20_memory.md R41). -/
theorem Bus.write_destination (c v : List Byte) (random : Nat) :
    (Bus.destination c).write v random =
      if v.length = c.length then .ok (.destination v, random) else .error .busWidthMismatch := rfl

end Sys2Proof.Machine
end

