-- ==== Sys2Proof/Laws/State.lean ====
section
/-! SUPPORT. What each update of the state does to each field: one lemma per field and update, true by rfl, so that no
later proof unfolds a record update. The rfl stands in parentheses so that simp rewrites with these lemmas under a
condition's decision procedure too. -/

namespace Sys2Proof.Machine

variable (s : State)

@[simp] theorem State.jump_pc (a : Nat) : (s.jump a).pc = BitVec.ofNat 64 a := (rfl)
@[simp] theorem State.jump_fl (a : Nat) : (s.jump a).fl = s.fl := (rfl)
@[simp] theorem State.jump_gpr (a : Nat) : (s.jump a).gpr = s.gpr := (rfl)
@[simp] theorem State.jump_mem (a : Nat) : (s.jump a).mem = s.mem := (rfl)
@[simp] theorem State.jump_run (a : Nat) : (s.jump a).run = s.run := (rfl)
@[simp] theorem State.jump_out (a : Nat) : (s.jump a).out = s.out := (rfl)
@[simp] theorem State.jump_stop (a : Nat) : (s.jump a).stop = s.stop := (rfl)
@[simp] theorem State.jump_random (a : Nat) : (s.jump a).random = s.random := (rfl)

@[simp] theorem State.advance_pc (n : Nat) : (s.advance n).pc = s.pc + BitVec.ofNat 64 n := (rfl)
@[simp] theorem State.advance_fl (n : Nat) : (s.advance n).fl = s.fl := (rfl)
@[simp] theorem State.advance_gpr (n : Nat) : (s.advance n).gpr = s.gpr := (rfl)
@[simp] theorem State.advance_mem (n : Nat) : (s.advance n).mem = s.mem := (rfl)
@[simp] theorem State.advance_run (n : Nat) : (s.advance n).run = s.run := (rfl)
@[simp] theorem State.advance_out (n : Nat) : (s.advance n).out = s.out := (rfl)
@[simp] theorem State.advance_stop (n : Nat) : (s.advance n).stop = s.stop := (rfl)
@[simp] theorem State.advance_random (n : Nat) : (s.advance n).random = s.random := (rfl)

@[simp] theorem State.emit_pc (e : OutEvent) : (s.emit e).pc = s.pc := (rfl)
@[simp] theorem State.emit_fl (e : OutEvent) : (s.emit e).fl = s.fl := (rfl)
@[simp] theorem State.emit_gpr (e : OutEvent) : (s.emit e).gpr = s.gpr := (rfl)
@[simp] theorem State.emit_mem (e : OutEvent) : (s.emit e).mem = s.mem := (rfl)
@[simp] theorem State.emit_run (e : OutEvent) : (s.emit e).run = s.run := (rfl)
@[simp] theorem State.emit_out (e : OutEvent) : (s.emit e).out = s.out ++ [e] := (rfl)
@[simp] theorem State.emit_stop (e : OutEvent) : (s.emit e).stop = s.stop := (rfl)
@[simp] theorem State.emit_random (e : OutEvent) : (s.emit e).random = s.random := (rfl)

@[simp] theorem State.emitChars_pc (str : List Byte) : (s.emitChars str).pc = s.pc := (rfl)
@[simp] theorem State.emitChars_fl (str : List Byte) : (s.emitChars str).fl = s.fl := (rfl)
@[simp] theorem State.emitChars_gpr (str : List Byte) : (s.emitChars str).gpr = s.gpr := (rfl)
@[simp] theorem State.emitChars_mem (str : List Byte) : (s.emitChars str).mem = s.mem := (rfl)
@[simp] theorem State.emitChars_run (str : List Byte) : (s.emitChars str).run = s.run := (rfl)
@[simp] theorem State.emitChars_out (str : List Byte) : (s.emitChars str).out = s.out ++ str.map .c := (rfl)
@[simp] theorem State.emitChars_stop (str : List Byte) : (s.emitChars str).stop = s.stop := (rfl)
@[simp] theorem State.emitChars_random (str : List Byte) : (s.emitChars str).random = s.random := (rfl)

@[simp] theorem State.fail_pc (k : FailKind) (ia : Reg) (op : Option Byte) : (s.fail k ia op).pc = s.pc := (rfl)
@[simp] theorem State.fail_fl (k : FailKind) (ia : Reg) (op : Option Byte) : (s.fail k ia op).fl = s.fl := (rfl)
@[simp] theorem State.fail_gpr (k : FailKind) (ia : Reg) (op : Option Byte) : (s.fail k ia op).gpr = s.gpr := (rfl)
@[simp] theorem State.fail_mem (k : FailKind) (ia : Reg) (op : Option Byte) : (s.fail k ia op).mem = s.mem := (rfl)
@[simp] theorem State.fail_run (k : FailKind) (ia : Reg) (op : Option Byte) : (s.fail k ia op).run = .failed { kind := k, pc := ia, opcode := op } := (rfl)
@[simp] theorem State.fail_out (k : FailKind) (ia : Reg) (op : Option Byte) : (s.fail k ia op).out = s.out := (rfl)
@[simp] theorem State.fail_stop (k : FailKind) (ia : Reg) (op : Option Byte) : (s.fail k ia op).stop = s.stop := (rfl)
@[simp] theorem State.fail_random (k : FailKind) (ia : Reg) (op : Option Byte) : (s.fail k ia op).random = s.random := (rfl)

@[simp] theorem State.halt_pc : (s.halt).pc = s.pc := (rfl)
@[simp] theorem State.halt_fl : (s.halt).fl = s.fl := (rfl)
@[simp] theorem State.halt_gpr : (s.halt).gpr = s.gpr := (rfl)
@[simp] theorem State.halt_mem : (s.halt).mem = s.mem := (rfl)
@[simp] theorem State.halt_run : (s.halt).run = .halted := (rfl)
@[simp] theorem State.halt_out : (s.halt).out = s.out := (rfl)
@[simp] theorem State.halt_stop : (s.halt).stop = s.stop := (rfl)
@[simp] theorem State.halt_random : (s.halt).random = s.random := (rfl)

@[simp] theorem State.cancel_pc : (s.cancel).pc = s.pc := (rfl)
@[simp] theorem State.cancel_fl : (s.cancel).fl = s.fl := (rfl)
@[simp] theorem State.cancel_gpr : (s.cancel).gpr = s.gpr := (rfl)
@[simp] theorem State.cancel_mem : (s.cancel).mem = s.mem := (rfl)
@[simp] theorem State.cancel_run : (s.cancel).run = .cancelled := (rfl)
@[simp] theorem State.cancel_out : (s.cancel).out = s.out := (rfl)
@[simp] theorem State.cancel_stop : (s.cancel).stop = s.stop := (rfl)
@[simp] theorem State.cancel_random : (s.cancel).random = s.random := (rfl)

@[simp] theorem State.withStop_pc (l : List Bool) : (s.withStop l).pc = s.pc := (rfl)
@[simp] theorem State.withStop_fl (l : List Bool) : (s.withStop l).fl = s.fl := (rfl)
@[simp] theorem State.withStop_gpr (l : List Bool) : (s.withStop l).gpr = s.gpr := (rfl)
@[simp] theorem State.withStop_mem (l : List Bool) : (s.withStop l).mem = s.mem := (rfl)
@[simp] theorem State.withStop_run (l : List Bool) : (s.withStop l).run = s.run := (rfl)
@[simp] theorem State.withStop_out (l : List Bool) : (s.withStop l).out = s.out := (rfl)
@[simp] theorem State.withStop_stop (l : List Bool) : (s.withStop l).stop = l := (rfl)
@[simp] theorem State.withStop_random (l : List Bool) : (s.withStop l).random = s.random := (rfl)

@[simp] theorem State.sampleStop_pc : (s.sampleStop).pc = s.pc := (rfl)
@[simp] theorem State.sampleStop_fl : (s.sampleStop).fl = s.fl := (rfl)
@[simp] theorem State.sampleStop_gpr : (s.sampleStop).gpr = s.gpr := (rfl)
@[simp] theorem State.sampleStop_mem : (s.sampleStop).mem = s.mem := (rfl)
@[simp] theorem State.sampleStop_run : (s.sampleStop).run = s.run := (rfl)
@[simp] theorem State.sampleStop_out : (s.sampleStop).out = s.out := (rfl)
@[simp] theorem State.sampleStop_stop : (s.sampleStop).stop = s.stop.tail := (rfl)
@[simp] theorem State.sampleStop_random : (s.sampleStop).random = s.random := (rfl)

@[simp] theorem State.setReg_pc_pc (v : Reg) : (s.setReg .pc v).pc = v := (rfl)
@[simp] theorem State.setReg_pc_fl (v : Reg) : (s.setReg .pc v).fl = s.fl := (rfl)
@[simp] theorem State.setReg_pc_gpr (v : Reg) : (s.setReg .pc v).gpr = s.gpr := (rfl)
@[simp] theorem State.setReg_pc_mem (v : Reg) : (s.setReg .pc v).mem = s.mem := (rfl)
@[simp] theorem State.setReg_pc_run (v : Reg) : (s.setReg .pc v).run = s.run := (rfl)
@[simp] theorem State.setReg_pc_out (v : Reg) : (s.setReg .pc v).out = s.out := (rfl)
@[simp] theorem State.setReg_pc_stop (v : Reg) : (s.setReg .pc v).stop = s.stop := (rfl)
@[simp] theorem State.setReg_pc_random (v : Reg) : (s.setReg .pc v).random = s.random := (rfl)

@[simp] theorem State.setReg_fl_pc (v : Reg) : (s.setReg .fl v).pc = s.pc := (rfl)
@[simp] theorem State.setReg_fl_fl (v : Reg) : (s.setReg .fl v).fl = v := (rfl)
@[simp] theorem State.setReg_fl_gpr (v : Reg) : (s.setReg .fl v).gpr = s.gpr := (rfl)
@[simp] theorem State.setReg_fl_mem (v : Reg) : (s.setReg .fl v).mem = s.mem := (rfl)
@[simp] theorem State.setReg_fl_run (v : Reg) : (s.setReg .fl v).run = s.run := (rfl)
@[simp] theorem State.setReg_fl_out (v : Reg) : (s.setReg .fl v).out = s.out := (rfl)
@[simp] theorem State.setReg_fl_stop (v : Reg) : (s.setReg .fl v).stop = s.stop := (rfl)
@[simp] theorem State.setReg_fl_random (v : Reg) : (s.setReg .fl v).random = s.random := (rfl)

@[simp] theorem State.setReg_gpr_pc (i : Nat) (v : Reg) : (s.setReg (.gpr i) v).pc = s.pc := (rfl)
@[simp] theorem State.setReg_gpr_fl (i : Nat) (v : Reg) : (s.setReg (.gpr i) v).fl = s.fl := (rfl)
@[simp] theorem State.setReg_gpr_gpr (i : Nat) (v : Reg) : (s.setReg (.gpr i) v).gpr = s.gpr.set i v := (rfl)
@[simp] theorem State.setReg_gpr_mem (i : Nat) (v : Reg) : (s.setReg (.gpr i) v).mem = s.mem := (rfl)
@[simp] theorem State.setReg_gpr_run (i : Nat) (v : Reg) : (s.setReg (.gpr i) v).run = s.run := (rfl)
@[simp] theorem State.setReg_gpr_out (i : Nat) (v : Reg) : (s.setReg (.gpr i) v).out = s.out := (rfl)
@[simp] theorem State.setReg_gpr_stop (i : Nat) (v : Reg) : (s.setReg (.gpr i) v).stop = s.stop := (rfl)
@[simp] theorem State.setReg_gpr_random (i : Nat) (v : Reg) : (s.setReg (.gpr i) v).random = s.random := (rfl)

/-! The fields no register write touches, whichever register it is. -/

@[simp] theorem State.setReg_mem (r : RegName) (v : Reg) : (s.setReg r v).mem = s.mem := by cases r <;> rfl
@[simp] theorem State.setReg_run (r : RegName) (v : Reg) : (s.setReg r v).run = s.run := by cases r <;> rfl
@[simp] theorem State.setReg_out (r : RegName) (v : Reg) : (s.setReg r v).out = s.out := by cases r <;> rfl
@[simp] theorem State.setReg_stop (r : RegName) (v : Reg) : (s.setReg r v).stop = s.stop := by cases r <;> rfl
@[simp] theorem State.setReg_random (r : RegName) (v : Reg) : (s.setReg r v).random = s.random := by cases r <;> rfl

@[simp] theorem State.setReg_gpr_length (r : RegName) (v : Reg) : (s.setReg r v).gpr.length = s.gpr.length := by
  cases r <;> simp [State.setReg]

/-! Reading a register after an update. -/

@[simp] theorem State.getReg_pc : s.getReg .pc = s.pc := (rfl)
@[simp] theorem State.getReg_fl : s.getReg .fl = s.fl := (rfl)

/-- A register of the file reads back what was written. -/
theorem State.getReg_setReg_self {r : RegName} (v : Reg) (h : ∀ i, r = .gpr i → i < s.gpr.length) :
    (s.setReg r v).getReg r = v := by
  cases r with
  | pc => rfl
  | fl => rfl
  | gpr i => simp [State.setReg, State.getReg, List.getD_eq_getElem?_getD, h i rfl]

/-- Writing one register leaves every other as it was. -/
theorem State.getReg_setReg_ne {r q : RegName} (v : Reg) (h : q ≠ r) : (s.setReg r v).getReg q = s.getReg q := by
  cases r <;> cases q <;> simp_all [State.setReg, State.getReg, List.getD_eq_getElem?_getD]
  next i j => rw [List.getElem?_set_ne (fun e => h e.symm)]

/-! The number of registers after reset. -/

theorem State.reset_gpr_length : State.reset.gpr.length = Config.nGpr :=
  List.length_replicate

end Sys2Proof.Machine
end

