-- ==== Sys2Proof/Laws/Ops.lean ====
section
/-! SUPPORT. The Program Counter's operations (10_state.md R22 to R24). -/

namespace Sys2Proof.Machine

/-- `jump` leaves the 8 big-endian bytes of the address in the PC (10_state.md R23). -/
theorem State.jump_bytes (s : State) (a : Nat) : regBytes (s.jump a).pc = tobe 8 a := by
  simp only [State.jump_pc, regBytes, BitVec.toNat_ofNat]
  exact tobe_mod 8 a

theorem State.advance_toNat {s : State} {n : Nat} (h : s.pc.toNat + n < 2 ^ 64) :
    (s.advance n).pc.toNat = s.pc.toNat + n := by
  have hn : n % 2 ^ 64 = n := Nat.mod_eq_of_lt (by omega)
  simp only [State.advance_pc, BitVec.toNat_add, BitVec.toNat_ofNat, hn]
  exact Nat.mod_eq_of_lt h

theorem State.advance_zero (s : State) : s.advance 0 = s := by
  simp [State.advance]

theorem State.advance_advance (s : State) (m n : Nat) : (s.advance m).advance n = s.advance (m + n) := by
  simp only [State.advance, State.mk.injEq, and_true]
  rw [BitVec.add_assoc, ← BitVec.ofNat_add]

/-- What an increment can answer (10_state.md R22). -/
theorem State.increment_cases (s : State) :
    (s.pc.toNat + 1 < 2 ^ 64 ∧ s.increment = .ok (s.advance 1)) ∨
      (2 ^ 64 ≤ s.pc.toNat + 1 ∧ s.increment = .error .outOfBounds) := by
  by_cases h : s.pc.toNat + 1 < 2 ^ 64
  · refine .inl ⟨h, ?_⟩
    have : BitVec.ofNat 64 (s.pc.toNat + 1) = s.pc + BitVec.ofNat 64 1 := by
      rw [BitVec.ofNat_add, BitVec.ofNat_toNat, BitVec.setWidth_eq]
    simp only [State.increment, h, if_true, State.jump, State.advance, this]
  · exact .inr ⟨by omega, by simp only [State.increment, h, if_false]⟩

end Sys2Proof.Machine
end

