-- ==== Sys2Proof/Laws/Fetch.lean ====
section
/-! SUPPORT. The fetch primitive and the instruction stream without the bus (40_cycle.md R83 to R85). -/

namespace Sys2Proof.Machine

/-- What a fetch can answer (40_cycle.md R83; 10_state.md R22). -/
theorem State.fetch_eq (s : State) :
    s.fetch =
      if s.pc.toNat + 1 ≤ s.mem.size ∧ s.pc.toNat + 1 < 2 ^ 64 then
        .ok (s.mem.get s.pc.toNat, s.advance 1)
      else .error .outOfBounds := by
  simp only [State.fetch, Memory.present_request, be_regBytes]
  by_cases h : s.pc.toNat + 1 ≤ s.mem.size
  · rcases s.increment_cases with ⟨hi, e⟩ | ⟨hi, e⟩
    · rw [if_pos h, if_pos ⟨h, hi⟩]
      simp [e, bind, Except.bind, pure, Except.pure, Memory.getBytes, List.range_succ]
    · rw [if_pos h, if_neg (by omega)]
      simp [e, bind, Except.bind, Memory.getBytes, List.range_succ]
  · simp [h, bind, Except.bind]

/-- Byte `k` of the instruction stream: the byte of memory at `pc + k`, where it can be fetched. -/
theorem State.codeStream_eq (s : State) (k : Nat) :
    s.codeStream k =
      if s.pc.toNat + k + 1 ≤ s.mem.size ∧ s.pc.toNat + k + 1 < 2 ^ 64 then some (s.mem.get (s.pc.toNat + k))
      else none := by
  unfold State.codeStream
  by_cases h : s.pc.toNat + k < 2 ^ 64
  · rw [if_pos h, State.fetch_eq]
    simp only [State.advance_toNat h, State.advance_mem]
    by_cases hc : s.pc.toNat + k + 1 ≤ s.mem.size ∧ s.pc.toNat + k + 1 < 2 ^ 64
    · rw [if_pos hc, if_pos hc]
    · rw [if_neg hc, if_neg hc]
  · rw [if_neg h, if_neg (by omega)]

/-- Taking the stop sample leaves the instruction stream as it is. -/
theorem State.sampleStop_codeStream (s : State) : s.sampleStop.codeStream = s.codeStream := by
  funext k
  simp only [State.codeStream_eq, State.sampleStop_pc, State.sampleStop_mem]

/-- An instruction stream ends: past a byte that cannot be fetched there is none (40_cycle.md R83). -/
theorem State.codeStream_none_mono {s : State} {j k : Nat} (h : s.codeStream j = none) (hjk : j ≤ k) :
    s.codeStream k = none := by
  rw [State.codeStream_eq] at h ⊢
  split at h
  · simp at h
  · rw [if_neg (by omega)]

end Sys2Proof.Machine
end

