-- ==== Sys2Proof/Laws/Operands.lean ====
section
/-! SUPPORT. Operands without the bus: what resolving, committing, the flag write and the ALU answer, each said once
(40_cycle.md R86 to R90; 42_alu.md R103, R104). -/

namespace Sys2Proof.Machine

/-! ## Sector paths -/

theorem sectorBounds_le {p : List Half} (h : p.length ≤ 3) :
    (sectorBounds p).1 ≤ (sectorBounds p).2 ∧ (sectorBounds p).2 < 8 := by
  match p, h with
  | [], _ => decide
  | [a], _ => cases a <;> decide
  | [a, b], _ => cases a <;> cases b <;> decide
  | [a, b, c], _ => cases a <;> cases b <;> cases c <;> decide
  | _ :: _ :: _ :: _ :: _, h => exact absurd h (by simp)

theorem sectorRange_cases (p : List Half) :
    (p.length ≤ 3 ∧ sectorRange p = .ok (sectorBounds p)) ∨ (3 < p.length ∧ sectorRange p = .error .invalidOperand) := by
  by_cases h : p.length ≤ 3
  · exact .inl ⟨h, by simp [sectorRange, h, sectorBounds]⟩
  · exact .inr ⟨by omega, by simp [sectorRange, h]⟩

/-! ## Registers -/

theorem regDecode_gpr_lt {n i : Nat} {c0 c1 : Byte} (h : regDecode n c0 c1 = some (.gpr i)) : i < n := by
  unfold regDecode at h
  split at h
  · simp at h
  · split at h
    · simp at h
    · split at h
      · next h0 h1 _ _ =>
        split at h
        · next hlt => simp only [Option.some.injEq, RegName.gpr.injEq] at h; omega
        · simp at h
      · simp at h

/-- A named register reads back what was written to it. -/
theorem State.getReg_setReg_named {s : State} {c0 c1 : Byte} {r : RegName} (v : Reg)
    (h : regDecode s.gpr.length c0 c1 = some r) : (s.setReg r v).getReg r = v :=
  State.getReg_setReg_self s v (fun _ e => regDecode_gpr_lt (e ▸ h))

/-! ## The state past an instruction -/

theorem State.atNext_eq_advance (s : State) (n : Nat) : s.atNext n = s.advance n := by
  simp only [State.atNext, State.advance]
  rw [BitVec.ofNat_add, BitVec.ofNat_toNat, BitVec.setWidth_eq]

theorem State.advance_regBytes (s : State) (n : Nat) : regBytes (s.advance n).pc = tobe 8 (s.pc.toNat + n) := by
  rw [← State.atNext_eq_advance]
  simp only [State.atNext, regBytes, BitVec.toNat_ofNat]
  exact tobe_mod 8 _

/-- Whether an operand resolves does not depend on the PC. -/
@[simp] theorem State.advance_resolves (s : State) (n : Nat) (d : Operand) :
    (s.advance n).resolves d = s.resolves d := by
  cases d <;> rfl

/-! ## Resolving -/

theorem State.operandBytes_length {s : State} {d : Operand} (h : s.resolves d = true) :
    (s.operandBytes d).length = operandWidth d := by
  cases d with
  | mem w a => simp [State.operandBytes, operandWidth]
  | reg c0 c1 p =>
    simp only [State.resolves, Bool.and_eq_true, decide_eq_true_eq, Option.isSome_iff_exists] at h
    obtain ⟨⟨r, hr⟩, hp⟩ := h
    have ⟨h1, h2⟩ := sectorBounds_le hp
    simp only [State.operandBytes, hr, operandWidth]
    exact slice_length h1 (by simpa using h2)

/-- Resolving an input answers its bytes, or the operand's failure (40_cycle.md R87, R89). -/
theorem State.resolveRead_eq (s : State) (d : Operand) :
    s.resolveRead d =
      if s.resolves d then .ok (.source (s.operandBytes d)) else .error (resolveFailure d) := by
  cases d with
  | mem w a =>
    have hb : be (tobe 4 a.toNat) = a.toNat := be_tobe_of_lt (by simpa using a.isLt)
    simp only [State.resolveRead, Memory.present_request, hb, State.resolves, decide_eq_true_eq, resolveFailure,
      State.operandBytes]
    by_cases h : a.toNat + w.toNat ≤ s.mem.size <;> simp [h, bind, Except.bind, pure, Except.pure]
  | reg c0 c1 p =>
    simp only [State.resolveRead, State.findReg, State.sectorRead, State.resolves, State.operandBytes, resolveFailure]
    rcases (regDecode s.gpr.length c0 c1).eq_none_or_eq_some with hr | ⟨r, hr⟩
    · simp [hr, bind, Except.bind]
    · rcases sectorRange_cases p with ⟨h, e⟩ | ⟨h, e⟩
      · simp [hr, bind, Except.bind, pure, Except.pure, e, h]
      · simp [hr, bind, Except.bind, e, Nat.not_le.mpr h]

/-- Resolving the output answers a destination bus of its width, or the operand's failure (40_cycle.md R88, R89). -/
theorem State.resolveWrite_eq (s : State) (d : Operand) :
    s.resolveWrite d =
      if s.resolves d then .ok (.destination (s.operandBytes d)) else .error (resolveFailure d) := by
  cases d with
  | mem w a =>
    simp only [State.resolveWrite, State.resolves, decide_eq_true_eq, resolveFailure, State.operandBytes]
    rcases s.mem.read_cases a.toNat w.toNat with ⟨h, e⟩ | ⟨h, e⟩
    · simp [bind, Except.bind, pure, Except.pure, e, h]
    · simp [bind, Except.bind, e, Nat.not_le.mpr h]
  | reg c0 c1 p =>
    simp only [State.resolveWrite, State.findReg, State.sectorRead, State.resolves, State.operandBytes, resolveFailure]
    rcases (regDecode s.gpr.length c0 c1).eq_none_or_eq_some with hr | ⟨r, hr⟩
    · simp [hr, bind, Except.bind]
    · rcases sectorRange_cases p with ⟨h, e⟩ | ⟨h, e⟩
      · simp [hr, bind, Except.bind, pure, Except.pure, e, h]
      · simp [hr, bind, Except.bind, e, Nat.not_le.mpr h]

/-! ## Writing -/

/-- A commit whose output resolved and whose data has its width cannot fail (40_cycle.md R90). -/
theorem State.commit_eq {s : State} {d : Operand} {v : List Byte} {bus : Bus} (h : s.resolves d = true)
    (hv : v.length = operandWidth d) (hb : bus.read = v) : s.commit bus d = .ok (s.writeOperand d v) := by
  cases d with
  | mem w a =>
    have ha : be (tobe 4 a.toNat) = a.toNat := be_tobe_of_lt (by simpa using a.isLt)
    simp only [State.resolves, decide_eq_true_eq] at h
    simp only [operandWidth] at hv
    simp only [State.commit, hb, Memory.present_source, ha, hv, h, if_true]
    rfl
  | reg c0 c1 p =>
    simp only [State.resolves, Bool.and_eq_true, decide_eq_true_eq, Option.isSome_iff_exists] at h
    obtain ⟨⟨r, hr⟩, hp⟩ := h
    have e : sectorRange p = .ok (sectorBounds p) := by simp [sectorRange, hp, sectorBounds]
    simp only [operandWidth] at hv
    simp [State.commit, State.findReg, hr, State.sectorWrite, e, hb, hv, bind, Except.bind, State.writeOperand]

/-- The flag write cannot fail (42_alu.md R104). -/
theorem State.setCarry_eq (s : State) (carry : Nat) : s.setCarry carry = .ok (s.withOf (BitVec.ofNat 8 carry)) := by
  simp [State.setCarry, Config.uaddClearsOf, State.sectorWrite, sectorRange, bisect, State.withOf]

@[simp] theorem State.withOf_pc (s : State) (b : Byte) : (s.withOf b).pc = s.pc := (rfl)
@[simp] theorem State.withOf_gpr (s : State) (b : Byte) : (s.withOf b).gpr = s.gpr := (rfl)
@[simp] theorem State.withOf_mem (s : State) (b : Byte) : (s.withOf b).mem = s.mem := (rfl)
@[simp] theorem State.withOf_run (s : State) (b : Byte) : (s.withOf b).run = s.run := (rfl)
@[simp] theorem State.withOf_out (s : State) (b : Byte) : (s.withOf b).out = s.out := (rfl)
@[simp] theorem State.withOf_stop (s : State) (b : Byte) : (s.withOf b).stop = s.stop := (rfl)
@[simp] theorem State.withOf_random (s : State) (b : Byte) : (s.withOf b).random = s.random := (rfl)

theorem State.withOf_flBytes (s : State) (b : Byte) : regBytes (s.withOf b).fl = b :: (regBytes s.fl).drop 1 := by
  simp only [State.withOf, State.setReg_fl_fl]
  rw [regBytes_regOfBytes (by rw [splice_length] <;> simp)]
  simp [splice]

@[simp] theorem State.writeOperand_run (s : State) (d : Operand) (v : List Byte) :
    (s.writeOperand d v).run = s.run := by
  cases d <;> simp only [State.writeOperand]
  split <;> simp

@[simp] theorem State.writeOperand_out (s : State) (d : Operand) (v : List Byte) :
    (s.writeOperand d v).out = s.out := by
  cases d <;> simp only [State.writeOperand]
  split <;> simp

@[simp] theorem State.writeOperand_stop (s : State) (d : Operand) (v : List Byte) :
    (s.writeOperand d v).stop = s.stop := by
  cases d <;> simp only [State.writeOperand]
  split <;> simp

@[simp] theorem State.writeOperand_random (s : State) (d : Operand) (v : List Byte) :
    (s.writeOperand d v).random = s.random := by
  cases d <;> simp only [State.writeOperand]
  split <;> simp

@[simp] theorem State.writeOperand_gpr_length (s : State) (d : Operand) (v : List Byte) :
    (s.writeOperand d v).gpr.length = s.gpr.length := by
  cases d <;> simp only [State.writeOperand]
  split <;> simp

@[simp] theorem State.writeOperand_mem_size (s : State) (d : Operand) (v : List Byte) :
    (s.writeOperand d v).mem.size = s.mem.size := by
  cases d <;> simp only [State.writeOperand]
  · split <;> simp
  · simp

/-- A register the operand does not name is as before. -/
theorem State.writeOperand_getReg {s : State} {d : Operand} {r : RegName} (v : List Byte)
    (h : s.namesReg d r = false) : (s.writeOperand d v).getReg r = s.getReg r := by
  cases d with
  | mem w a => cases r <;> rfl
  | reg c0 c1 p =>
    simp only [State.writeOperand]
    split
    · next q hq =>
      refine State.getReg_setReg_ne s _ (fun e => ?_)
      simp [State.namesReg, hq, e] at h
    · rfl

/-- Memory outside the operand is as before. -/
theorem State.writeOperand_get {s : State} {d : Operand} {v : List Byte} {a : Nat}
    (hv : v.length = operandWidth d) (h : storesTo d a = false) : (s.writeOperand d v).mem.get a = s.mem.get a := by
  cases d with
  | mem w b =>
    simp only [storesTo, Bool.and_eq_false_iff, decide_eq_false_iff_not] at h
    simp only [operandWidth] at hv
    exact Memory.get_putBytes_outside _ (by omega)
  | reg c0 c1 p =>
    simp only [State.writeOperand]
    split <;> simp

/-- A written operand reads back. -/
theorem State.writeOperand_operandBytes {s : State} {d : Operand} {v : List Byte} (h : s.resolves d = true)
    (hv : v.length = operandWidth d) : (s.writeOperand d v).operandBytes d = v := by
  cases d with
  | mem w a =>
    simp only [operandWidth] at hv
    simp only [State.writeOperand, State.operandBytes, ← hv]
    exact Memory.getBytes_putBytes _ _ _
  | reg c0 c1 p =>
    simp only [State.resolves, Bool.and_eq_true, decide_eq_true_eq, Option.isSome_iff_exists] at h
    obtain ⟨⟨r, hr⟩, hp⟩ := h
    have ⟨h1, h2⟩ := sectorBounds_le hp
    have h2' : (sectorBounds p).2 < (regBytes (s.getReg r)).length := by simpa using h2
    simp only [operandWidth] at hv
    simp only [State.writeOperand, State.operandBytes, hr, State.setReg_gpr_length, State.getReg_setReg_named _ hr]
    rw [regBytes_regOfBytes (by rw [splice_length h1 h2' hv]; simp), slice_splice h1 h2' hv]

/-! ## The ALU instruction -/

/-- What the control unit's ALU instruction can answer for UADD (42_alu.md R103, R104; the order of failures is that of
60_exceptions.md R115). -/
theorem State.aluInstr_eq (s : State) (d1 d2 d3 : Operand) :
    s.aluInstr opUadd d1 d2 d3 =
      if s.resolves d1 = false then .error (resolveFailure d1)
      else if s.resolves d2 = false then .error (resolveFailure d2)
      else if s.resolves d3 = false then .error (resolveFailure d3)
      else if operandWidth d2 ≠ operandWidth d1 then .error .invalidOperand
      else if operandWidth d3 ≠ operandWidth d1 then .error .busWidthMismatch
      else
        .ok ((s.withOf (BitVec.ofNat 8
              (carryOut (operandWidth d1) (be (s.operandBytes d1)) (be (s.operandBytes d2))))).writeOperand d3
            (tobe (operandWidth d1)
              ((be (s.operandBytes d1) + be (s.operandBytes d2)) % 256 ^ operandWidth d1))) := by
  simp only [State.aluInstr, State.resolveRead_eq, State.resolveWrite_eq]
  cases h1 : s.resolves d1 with
  | false => simp [bind, Except.bind]
  | true =>
  cases h2 : s.resolves d2 with
  | false => simp [bind, Except.bind]
  | true =>
  cases h3 : s.resolves d3 with
  | false => simp [bind, Except.bind]
  | true =>
  have l1 := State.operandBytes_length h1
  have l2 := State.operandBytes_length h2
  have l3 := State.operandBytes_length h3
  simp only [aluRun, aluUadd, bind, Except.bind, if_true, Bus.source_width, Bus.destination_width, Bus.source_read,
    Bool.true_eq_false, if_false, l1, l2, l3, Bus.write_destination, tobe_length, State.setCarry_eq]
  by_cases hw2 : operandWidth d2 = operandWidth d1
  · by_cases hw3 : operandWidth d3 = operandWidth d1
    · simp only [hw2, hw3, ne_eq, not_true_eq_false, if_false, if_true, pure, Except.pure]
      exact State.commit_eq (by cases d3 <;> exact h3) (by simp [hw3]) rfl
    · simp [hw2, hw3]
  · simp [hw2]

end Sys2Proof.Machine
end

