-- ==== Sys2Proof/Laws/PerInstr.lean ====
section
/-! SUPPORT. Statements about every instruction as syntax, one lemma per constructor: its encoding has the length its
format gives it and begins with its opcode (30_encoding.md R59, R72, R73). -/

namespace Sys2Proof.Laws

/-- A descriptor's encoding has its length (30_encoding.md R72). -/
theorem encodeOperand_length (d : Operand) : (encodeOperand d).length = d.length := by
  cases d <;> simp [encodeOperand, Operand.length]

/-- The encoding has the length of the instruction's format (30_encoding.md R59). -/
def EncodeLength.Statement (i : Instr) : Prop :=
  (encode i).length = i.length

theorem EncodeLength.halt : EncodeLength.Statement .halt := rfl
theorem EncodeLength.outu (b : Byte) : EncodeLength.Statement (.outu b) := rfl
theorem EncodeLength.outc (b : Byte) : EncodeLength.Statement (.outc b) := rfl

theorem EncodeLength.cout (str : List Byte) : EncodeLength.Statement (.cout str) := by
  simp [EncodeLength.Statement, encode, Instr.length]

theorem EncodeLength.mout (src : Operand) : EncodeLength.Statement (.mout src) := by
  simp [EncodeLength.Statement, encode, Instr.length, encodeOperand_length, Nat.add_comm]

theorem EncodeLength.sta (dst : Operand) : EncodeLength.Statement (.sta dst) := by
  simp [EncodeLength.Statement, encode, Instr.length, encodeOperand_length, Nat.add_comm]

theorem EncodeLength.uadd (src1 src2 dst : Operand) : EncodeLength.Statement (.uadd src1 src2 dst) := by
  simp only [EncodeLength.Statement, encode, Instr.length, List.length_cons, List.length_append, encodeOperand_length]
  omega

/-- The encoding begins with the instruction's opcode (30_encoding.md R58, R73). -/
def EncodeOpcode.Statement (i : Instr) : Prop :=
  (encode i).head? = some i.opcode

theorem EncodeOpcode.halt : EncodeOpcode.Statement .halt := rfl
theorem EncodeOpcode.outu (b : Byte) : EncodeOpcode.Statement (.outu b) := rfl
theorem EncodeOpcode.outc (b : Byte) : EncodeOpcode.Statement (.outc b) := rfl
theorem EncodeOpcode.cout (str : List Byte) : EncodeOpcode.Statement (.cout str) := rfl
theorem EncodeOpcode.mout (src : Operand) : EncodeOpcode.Statement (.mout src) := rfl
theorem EncodeOpcode.sta (dst : Operand) : EncodeOpcode.Statement (.sta dst) := rfl
theorem EncodeOpcode.uadd (src1 src2 dst : Operand) : EncodeOpcode.Statement (.uadd src1 src2 dst) := rfl

end Sys2Proof.Laws
end

