-- ==== Sys2Proof/Laws/Run.lean ====
section
/-! SUPPORT. What a step can do, said once, the equations of the run loop by the run state, and the
text of a log's parts. -/

namespace Sys2Proof.Machine

/-- Every next state of a step is one of these: the run cancelled, an instruction's outcome, an illegal opcode's failure
or a cut instruction's (40_cycle.md R79). -/
theorem step_cases {s t : State} (h : step s = .next t) :
    s.run = .running ∧
      (s.stopAsserted = true ∧ t = s.cancel ∨
        s.stopAsserted = false ∧
          ((∃ i n, s.sampleStop.fetchInstr = .ok i n ∧ exec i s.sampleStop = .next t) ∨
            (∃ op, s.sampleStop.fetchInstr = .illegal op ∧ t = s.sampleStop.failIllegal op) ∨
              ∃ n, s.sampleStop.fetchInstr = .truncated n ∧ t = s.sampleStop.failTruncated n)) := by
  unfold step at h
  split at h
  · next hr =>
    refine ⟨hr, ?_⟩
    split at h
    · next hs => exact .inl ⟨hs, (Host.Outcome.next.inj h).symm⟩
    · next hs =>
      refine .inr ⟨by simpa using hs, ?_⟩
      split at h
      · next hf => exact .inl ⟨_, _, hf, h⟩
      · next hf => exact .inr (.inl ⟨_, hf, (Host.Outcome.next.inj h).symm⟩)
      · next hf => exact .inr (.inr ⟨_, hf, (Host.Outcome.next.inj h).symm⟩)
  · cases h

/-- A run that has ended returns at once, whatever the fuel. -/
theorem State.runLoop_of_ended {s : State} (h : s.run ≠ .running) (fuel : Nat) : s.runLoop fuel = some s.result := by
  cases fuel <;> unfold State.runLoop <;> split <;> first | rfl | contradiction

/-- Without fuel a Running core returns nothing. -/
theorem State.runLoop_zero {s : State} (h : s.run = .running) : s.runLoop 0 = none := by
  unfold State.runLoop; rw [h]

/-- A cycle that steps is the first of the loop. -/
theorem State.runLoop_of_next {s t : State} (h : step s = .next t) (fuel : Nat) :
    s.runLoop (fuel + 1) = t.runLoop fuel := by
  rw [State.runLoop, (step_cases h).1]; simp only [h]

/-- The cycle that steps is the first of `n + 1`. -/
theorem State.afterCycles_of_next {s t : State} (h : step s = .next t) (n : Nat) :
    s.afterCycles (n + 1) = t.afterCycles n := by
  rw [State.afterCycles, h]

/-- The sink receives the text of a log piece by piece, whatever the rendering. -/
theorem renderLog_append (render : Render) (out more : List OutEvent) :
    renderLog render (out ++ more) = renderLog render out ++ renderLog render more :=
  List.flatMap_append

end Sys2Proof.Machine
end

