-- ==== Sys2Proof/Tests/Slice0.lean ====
section
/-! SUPPORT. Tests: ill-formed terms refused, words of the spec decoded, vectors of 95_test_vectors.md (named V<n>, S<n>,
P<n> there) for one step each, and a witness for the hypotheses of every statement that has some. -/

namespace Sys2Proof.Tests

open Sys2Proof.Machine

/-- A core constructed from an image, with `MEM_SIZE = len(IMAGE)` and `n` general registers of zeros. -/
def tiny (image : List Byte) (n : Nat) : State :=
  (construct { image := image, memSize := none, fill := [], gprInit := List.replicate n 0, flInitRest := 0, seed := 0 }).getD
    State.reset

/-- The outcome is a next state of which `p` holds. -/
def nextIs (o : Host.Outcome State Fault Refusal) (p : State → Bool) : Bool :=
  match o with
  | .next t => p t
  | .fault _ => false
  | .refused _ => false

/-! ## Well-formedness refuses ill-formed terms -/

theorem test_wf_path_of_four_refused : (Operand.reg 0x30 0x30 [.h, .h, .h, .h]).wellFormed = false := by decide
theorem test_wf_path_of_three_accepted : (Operand.reg 0x30 0x30 [.h, .h, .h]).wellFormed = true := by decide
theorem test_wf_cout_with_zero_refused : (Instr.cout [0x41, 0x00]).wellFormed = false := by decide
theorem test_wf_mout_path_refused : (Instr.mout (.reg 0x30 0x30 [.l, .l, .l, .l])).wellFormed = false := by decide
theorem test_wf_sta_path_refused : (Instr.sta (.reg 0x30 0x30 [.l, .l, .l, .l])).wellFormed = false := by decide
theorem test_wf_uadd_path_refused :
    (Instr.uadd (.mem 1 0) (.mem 1 0) (.reg 0x30 0x30 [.l, .l, .l, .l])).wellFormed = false := by decide
theorem test_encodable_non_ascii_refused : (Operand.reg 0x80 0x30 []).encodable = false := by decide
theorem test_encodable_path_refused : (Operand.reg 0x30 0x30 [.l, .l, .l, .l]).encodable = false := by decide

/-! ## Decoding: words written out from 30_encoding.md R59, R65, R66 -/

theorem test_decode_halt : decode [0x00] = .ok .halt 1 := by decide
theorem test_decode_outu : decode [0x01, 0xFF, 0x00] = .ok (.outu 255) 2 := by decide
theorem test_decode_outc : decode [0x02, 0x41] = .ok (.outc 0x41) 2 := by decide
theorem test_decode_cout : decode [0x03, 0x48, 0x69, 0x00] = .ok (.cout [0x48, 0x69]) 4 := by decide
theorem test_decode_cout_empty : decode [0x03, 0x00, 0x00] = .ok (.cout []) 2 := by decide
/-- V30: `MOUT $fl.l`. -/
theorem test_decode_mout_reg : decode [0x04, 0x81, 0x66, 0x6C, 0x00] = .ok (.mout (.reg 0x66 0x6C [.l])) 4 := by decide
/-- V32: `MOUT m2[5]`. -/
theorem test_decode_mout_mem : decode [0x04, 0x02, 0x00, 0x00, 0x00, 0x05] = .ok (.mout (.mem 2 5)) 6 := by decide
theorem test_decode_sta : decode [0x05, 0x80, 0x30, 0x30] = .ok (.sta (.reg 0x30 0x30 [])) 4 := by decide
/-- P3, the UADD at 0x12: register, memory, register. -/
theorem test_decode_uadd :
    decode [0x10, 0x9F, 0x30, 0x30, 0x01, 0x00, 0x00, 0x00, 0x42, 0x9F, 0x30, 0x30] =
      .ok (.uadd (.reg 0x30 0x30 [.h, .h, .h]) (.mem 1 0x42) (.reg 0x30 0x30 [.h, .h, .h])) 12 := by decide
/-- V11r and V11q: a big-endian address, the widest operand. -/
theorem test_decode_operand_mem :
    decodeOperand (listStream [0x01, 0x01, 0x02, 0x03, 0x04]) 0 = .done (.mem 1 0x01020304) 5 ∧
      decodeOperand (listStream [0x7F, 0xFF, 0xFF, 0xFF, 0xFF]) 0 = .done (.mem 127 0xFFFFFFFF) 5 := by decide
/-- V11m, V11n: the first path character is the lowest mask bit. -/
theorem test_decode_operand_reg :
    decodeOperand (listStream [0x93, 0x30, 0x61]) 0 = .done (.reg 0x30 0x61 [.l, .l, .h]) 3 ∧
      decodeOperand (listStream [0x86, 0x30, 0x61]) 0 = .done (.reg 0x30 0x61 [.h, .l]) 3 := by decide
/-- V11t: a reserved bit is ignored. -/
theorem test_decode_operand_reserved :
    decodeOperand (listStream [0x89, 0x30, 0x30]) 0 = .done (.reg 0x30 0x30 [.l]) 3 := by decide
/-- S7: opcode 0x07 is illegal. -/
theorem test_decode_illegal : decode [0x07] = .illegal 0x07 := by decide
/-- V53: the third descriptor is missing; the failing fetch is the 12th byte. -/
theorem test_decode_truncated :
    decode [0x10, 0x01, 0x00, 0x00, 0x00, 0x00, 0x01, 0x00, 0x00, 0x00, 0x00] = .truncated 11 := by decide
/-- S3: `"ab"` with path `"hhh"`. -/
theorem test_encode_operand_S3 : encodeOperand (.reg 0x61 0x62 [.h, .h, .h]) = [0x9F, 0x61, 0x62] := by decide
/-- V11o, V11l. -/
theorem test_encode_operands :
    encodeOperand (.mem 4 0x20) = [0x04, 0x00, 0x00, 0x00, 0x20] ∧
      encodeOperand (.reg 0x70 0x63 [.h, .h, .h]) = [0x9F, 0x70, 0x63] := by decide

/-! ## Registers, bus, memory -/

/-- S1: sectors of the PC 0x1122334455667788. -/
theorem test_sectors_S1 :
    slice (regBytes 0x1122334455667788) 4 7 = [0x55, 0x66, 0x77, 0x88] ∧
      slice (regBytes 0x1122334455667788) 1 1 = [0x22] := by decide
/-- V3: a write of sector "lh". -/
theorem test_sector_write_V3 :
    regOfBytes (splice (regBytes 0x0102030405060708) 2 3 [0xAA, 0xBB]) = 0x0102AABB05060708 := by decide
/-- V2: strings that are no path. -/
theorem test_path_strings_V2 :
    sectorRangeOfString ['h', 'h', 'h', 'h'] = .error .invalidOperand ∧
      sectorRangeOfString ['x'] = .error .invalidOperand ∧
      sectorRangeOfString ['l', 'H'] = .error .invalidOperand ∧ sectorRangeOfString ['l', 'h'] = .ok (2, 3) := by decide
/-- V11a to V11h with 16 registers. -/
theorem test_identifiers_V11 :
    regDecode 16 0x70 0x63 = some .pc ∧ regDecode 16 0x66 0x6C = some .fl ∧ regDecode 16 0x30 0x30 = some (.gpr 0) ∧
      regDecode 16 0x30 0x66 = some (.gpr 15) ∧ regDecode 16 0x31 0x30 = none ∧ regDecode 16 0x30 0x46 = none ∧
      regDecode 16 0x50 0x43 = none ∧ regDecode 16 0x7A 0x7A = none ∧ regDecode 256 0x66 0x66 = some (.gpr 255) := by
  decide
/-- V9 and V10: the increment carries across bytes, and does not wrap. -/
theorem test_increment_V9_V10 :
    (match State.increment { tiny [] 0 with pc := 0xFF } with | .ok t => t.pc == 0x100 | .error _ => false) = true ∧
      (match State.increment { tiny [] 0 with pc := 0xFFFFFFFFFFFFFFFF } with
        | .ok _ => false | .error k => k == .outOfBounds) = true := by decide
/-- V14a, V14b: a destination bus. -/
theorem test_bus_write_V14 :
    (Bus.destination [1, 2]).write [3, 4] 0 = .ok (.destination [3, 4], 0) ∧
      (Bus.destination [1, 2]).write [5] 0 = .error .busWidthMismatch := by decide
/-- V13: contention keeps the width and never fails. -/
theorem test_bus_contention_V13 :
    ∃ b, (Bus.source [1, 2]).write [1, 2, 3] 0 = .ok (b, 2) ∧ b.width = 2 := ⟨_, rfl, rfl⟩
/-- V16 to V21 with 16 bytes. -/
theorem test_memory_V16_V21 :
    let m : Memory := { size := 16, cells := [] }
    (m.putBytes 12 [0xDE, 0xAD, 0xBE, 0xEF]).read 12 4 = .ok [0xDE, 0xAD, 0xBE, 0xEF] ∧
      m.read 13 4 = .error .outOfBounds ∧ m.read 16 0 = .ok [] ∧ m.read 17 0 = .error .outOfBounds ∧
      m.write 0 2 [1] = .error .busWidthMismatch ∧ m.write 15 2 [1, 2] = .error .outOfBounds := by decide
/-- Writing the value an unlisted address reads as removes the cell. -/
theorem test_memory_canonical :
    (Memory.putBytes { size := 16, cells := [] } 3 [1, 2]).putBytes 3 [0] = { size := 16, cells := [(4, 2)] } := by
  decide

/-! ## One step of each instruction -/

/-- V22. -/
theorem test_step_halt : nextIs (step (tiny [0x00] 0)) (fun t => t.run == .halted && t.pc == 1 && t.out == []) = true := by
  decide
/-- V23. -/
theorem test_step_outu : nextIs (step (tiny [0x01, 0xFF, 0x00] 0)) (fun t => t.pc == 2 && t.out == [.u 255]) = true := by
  decide
/-- V27: OUTU at the last byte. -/
theorem test_step_outu_cut :
    nextIs (step (tiny [0x01] 0)) (fun t => t.run == .failed ⟨.outOfBounds, 0, some 0x01⟩ && t.pc == 1 && t.out == []) =
      true := by decide
/-- V24: OUTC emits 0x00. -/
theorem test_step_outc : nextIs (step (tiny [0x02, 0x00, 0x00] 0)) (fun t => t.pc == 2 && t.out == [.c 0]) = true := by
  decide
/-- P1, the first instruction. -/
theorem test_step_cout :
    nextIs (step (tiny [0x03, 0x48, 0x69, 0x00] 0)) (fun t => t.pc == 4 && t.out == [.c 0x48, .c 0x69]) = true := by
  decide
/-- V26: the events before the failing fetch stay. -/
theorem test_step_cout_cut :
    nextIs (step (tiny [0x03, 0x41, 0x42] 0))
      (fun t => t.run == .failed ⟨.outOfBounds, 0, some 0x03⟩ && t.pc == 3 && t.out == [.c 0x41, .c 0x42]) = true := by
  decide
/-- V29: `MOUT $pc` reads the address after the MOUT. -/
theorem test_step_mout :
    nextIs (step (tiny [0x04, 0x80, 0x70, 0x63, 0x00] 0))
      (fun t => t.pc == 4 && t.out == [.m [0, 0, 0, 0, 0, 0, 0, 4]]) = true := by decide
/-- V33: an identifier that names no register. -/
theorem test_step_mout_unknown :
    nextIs (step (tiny [0x04, 0x80, 0x7A, 0x7A, 0x00] 0))
      (fun t => t.run == .failed ⟨.invalidOperand, 0, some 0x04⟩ && t.pc == 4 && t.out == []) = true := by decide
/-- V35: STA never resolves its operand. -/
theorem test_step_sta :
    nextIs (step (tiny [0x05, 0x80, 0x7A, 0x7A, 0x00] 0))
      (fun t => t.run == .failed ⟨.unimplementedOpcode, 0, some 0x05⟩ && t.pc == 4) = true := by decide
/-- V36: STA with its descriptor cut short. -/
theorem test_step_sta_cut :
    nextIs (step (tiny [0x05, 0x80, 0x30] 0))
      (fun t => t.run == .failed ⟨.outOfBounds, 0, some 0x05⟩ && t.pc == 3) = true := by decide
/-- V43: a register sector and a memory range, a memory output that is also an input. -/
theorem test_uadd_mixed :
    nextIs
      (exec (.uadd (.reg 0x30 0x30 [.h]) (.mem 4 0x20) (.mem 4 0x24))
        { tiny (List.replicate 0x20 0 ++ [0, 0, 0, 2, 0, 0, 0, 0]) 1 with gpr := [0x11111111FFFFFFFF] })
      (fun t => t.mem.getBytes 0x24 4 == [0, 0, 0, 1] && t.of == 1 && t.gpr == [0x11111111FFFFFFFF]) = true := by decide
/-- V44: the output overlaps `OF`; the output's byte stays. -/
theorem test_uadd_flag_overlap :
    nextIs
      (step (tiny ([0x10, 1, 0, 0, 0, 0x20, 1, 0, 0, 0, 0x21, 0x83, 0x66, 0x6C, 0x00] ++ List.replicate 17 0 ++
        [0x80, 0x80]) 0))
      (fun t => t.of == 0 && t.pc == 14) = true := by decide

/-! ## The cycle, reset, the text form -/

/-- V28: an empty memory. -/
theorem test_step_empty_memory :
    nextIs (step (tiny [] 0)) (fun t => t.run == .failed ⟨.outOfBounds, 0, none⟩ && t.pc == 0) = true := by decide
/-- V37: an illegal opcode. -/
theorem test_step_illegal :
    nextIs (step (tiny [0x07] 0)) (fun t => t.run == .failed ⟨.invalidOperand, 0, some 0x07⟩ && t.pc == 1) = true := by
  decide
/-- V38: the stop signal before the fetch. -/
theorem test_step_stop :
    nextIs (step { tiny [0x00] 0 with stop := [true] }) (fun t => t.run == .cancelled && t.pc == 0) = true := by decide
/-- A table word placed after reset is what step runs: UADD with operand words of zeros. -/
theorem test_withFetchWord_uadd :
    step (State.reset.withFetchWord 8 0x10) =
      exec (.uadd (.mem 0 0) (.mem 0 0) (.mem 0 0)) (State.reset.withFetchWord 8 0x10) := rfl
/-- `State.reset` is a construction (log entries 1 to 5). -/
theorem test_reset_is_construction :
    construct ⟨[], some Config.memSize, [], List.replicate Config.nGpr Config.gprInit, Config.flInitRest, 0⟩
      = some State.reset := by
  unfold construct State.reset
  generalize hg : List.replicate Config.nGpr Config.gprInit = g
  have hl : g.length = 256 := by rw [← hg, List.length_replicate]; rfl
  rw [if_pos (by simp [Construction.accepted, hl, Construction.capacity, Config.memSize, Config.maxGpr])]
  rfl
/-- The example of 41_control_io.md R96 by the whole interaction of the host: image `00`. -/
theorem test_hostRun_halt :
    (hostRun { image := [0x00], memSize := none, fill := [], gprInit := [], flInitRest := 0, seed := 0 } [] 1).map
      (fun r => (r.run, r.out, r.final.pc)) = some (.halted, [], 1) := by decide
/-- R93: a stop signal the host asserts before the first cycle. -/
theorem test_hostRun_cancelled :
    (hostRun { image := [0x00], memSize := none, fill := [], gprInit := [], flInitRest := 0, seed := 0 } [true] 1).map
      (fun r => (r.run, r.final.pc)) = some (.cancelled, 0) := by decide
/-- The texts of P1 and V29 under the default `RENDER`. -/
theorem test_render :
    renderLog renderDefault [.c 0x48, .c 0x69, .u 42] = ['H', 'i', '4', '2'] ∧
      renderLog renderDefault [.m [0, 0, 0, 0, 0, 0, 0, 4]] =
        ['0', ',', '0', ',', '0', ',', '0', ',', '0', ',', '0', ',', '0', ',', '4'] := by decide

/-- `RENDER` is the host's: another rendering of the same log, a line for each event. -/
theorem test_render_other :
    RunResult.text (fun e => renderDefault e ++ ['\n']) { (tiny [] 0).result with out := [.u 7, .c 0x41] } =
      ['7', '\n', 'A', '\n'] := by decide

/-! ## Witnesses: the hypotheses of each statement are met -/

theorem witness_DecodeOfEncodeGivesInstruction :
    (Instr.uadd (.reg 0xFF 0x00 [.h, .h, .h]) (.mem 127 0xFFFFFFFF) (.mem 0 0)).wellFormed = true ∧
      (Instr.cout [0xFF]).wellFormed = true := by decide
theorem witness_OperandCodecIsInverse :
    (Operand.reg 0x61 0x62 [.h, .h, .h]).wellFormed = true ∧
      decodeOperand (listStream [0x9F, 0x61, 0x62]) 0 = .done (.reg 0x61 0x62 [.h, .h, .h]) 3 ∧
      (∀ j : Fin 7, 2 + pathLength 0x9F ≤ j.val → (0x9F : Byte).getLsbD j = false) ∧
      decodeOperand (listStream [0x7F, 0, 0, 0, 0]) 0 = .done (.mem 127 0) 5 ∧ (0x7F : Byte).getLsbD 7 = false := by
  decide
theorem witness_DecodedInstructionIsWellFormed : decode [0x03, 0x41, 0x00, 0x07] = .ok (.cout [0x41]) 3 := by decide
theorem witness_ReservedBitsAreIgnored :
    ((0xE3 : Byte).getLsbD 7 = true ∧ (0x83 : Byte).getLsbD 7 = true ∧ pathLength 0xE3 = pathLength 0x83 ∧
      ∀ k : Fin 3, (0xE3 : Byte).getLsbD (2 + k) = (0x83 : Byte).getLsbD (2 + k)) ∧
      ([Half.h, .h, .h].length ≤ 3 ∧ 2 + [Half.h, .h, .h].length ≤ 5) ∧
      (0x00 : Byte).getLsbD 7 = false ∧
      decodeOperand (listStream [0x00, 0, 0, 0, 0]) 0 = decodeOperand (listStream [0x00, 0, 0, 0, 0]) 0 := by decide
theorem witness_SectorRangeTable : [Half.h, .h, .h].length ≤ 3 := by decide
theorem witness_MalformedPathIsInvalidOperand :
    3 < ['l', 'l', 'l', 'l'].length ∧ ('x' ∈ ['x'] ∧ 'x' ≠ 'l' ∧ 'x' ≠ 'h') ∧
      decodeOperand (listStream [0xFF, 0x30, 0x30]) 0 = .done (.reg 0x30 0x30 [.h, .h, .h]) 3 := by decide
theorem witness_SectorReadCopiesBytes :
    [Half.h, .h, .h].length ≤ 3 ∧ (tiny [] 1).sectorRead (.gpr 0) [.h, .h, .h] = .ok [0] ∧ 0 < [(0 : Byte)].length := by
  decide
theorem witness_SectorWriteReadsBack :
    regDecode (tiny [] 1).gpr.length 0x30 0x30 = some (.gpr 0) ∧ [Half.h, .h, .h].length ≤ 3 ∧
      [(1 : Byte)].length = (sectorBounds [.h, .h, .h]).2 - (sectorBounds [.h, .h, .h]).1 + 1 ∧
      ([] : List Byte).length ≠ (sectorBounds [.h, .h, .h]).2 - (sectorBounds [.h, .h, .h]).1 + 1 := by decide
theorem witness_MemoryReadIsBounded :
    12 + 4 ≤ (Memory.mk 16 []).size ∧ (Memory.mk 16 []).size < 13 + 4 ∧ (Memory.mk 16 []).get 12 = 0 := by decide
theorem witness_MemoryWriteReadsBack :
    (15 + 1 ≤ (Memory.mk 16 []).size ∧ [(1 : Byte)].length = 1) ∧ (Memory.mk 16 []).size < 16 + 1 ∧
      (15 + 1 ≤ (Memory.mk 16 []).size ∧ ([] : List Byte).length ≠ 1) := by decide
theorem witness_BusContentionNeverFails : (Bus.source [1, 2]).direction = .sourceOfData := rfl
theorem witness_BusWriteChecksWidth :
    (Bus.destination [1]).direction = .destinationOfData ∧ [(2 : Byte)].length = (Bus.destination [1]).width ∧
      ([] : List Byte).length ≠ (Bus.destination [1]).width := by decide
theorem witness_PresentMediatesAccess :
    (Memory.mk 2 [(1, 7)]).read (be [1]) (Bus.destination [0]).width = .ok [7] ∧
      (Memory.mk 2 [(1, 7)]).read (be [2]) (Bus.destination [0]).width = .error .outOfBounds ∧
      (Memory.mk 2 [(1, 7)]).write (be [1]) (Bus.source [8]).width [8] = .ok (Memory.mk 2 [(1, 8)]) ∧
      (Memory.mk 2 [(1, 7)]).write (be [2]) (Bus.source [8]).width [8] = .error .outOfBounds := by decide
theorem witness_FetchReadsByteAndIncrements :
    ((tiny [0x00] 0).pc.toNat < (tiny [0x00] 0).mem.size ∧ (tiny [0x00] 0).pc.toNat + 1 < 2 ^ 64) ∧
      (tiny [] 0).mem.size ≤ (tiny [] 0).pc.toNat ∧
      2 ^ 64 ≤ ({ tiny [] 0 with pc := 0xFFFFFFFFFFFFFFFF } : State).pc.toNat + 1 := by decide
theorem witness_StepRunsFetchedInstruction :
    (tiny [0x01, 0xFF] 0).ready ∧ (tiny [0x01, 0xFF] 0).sampleStop.fetchInstr = .ok (.outu 255) 2 := by decide
theorem witness_StepRunsEncodedInstruction :
    (tiny [0x01, 0xFF] 0).ready ∧ (tiny [0x01, 0xFF] 0).mem.size < 2 ^ 64 ∧ (Instr.outu 255).wellFormed = true ∧
      (tiny [0x01, 0xFF] 0).pc.toNat + (Instr.outu 255).length ≤ (tiny [0x01, 0xFF] 0).mem.size ∧
      (∀ k : Fin 2, (encode (.outu 255))[k.val]? = some ((tiny [0x01, 0xFF] 0).mem.get k)) := by decide
theorem witness_StepDecodesMemoryAtPc :
    ((tiny [0x00] 0).ready ∧ (tiny [0x00] 0).mem.size < 2 ^ 64 ∧ decode (tiny [0x00] 0).codeBytes = .ok .halt 1) ∧
      ((tiny [0x07] 0).ready ∧ decode (tiny [0x07] 0).codeBytes = .illegal 0x07) ∧
      ((tiny [0x05] 0).ready ∧ decode (tiny [0x05] 0).codeBytes = .truncated 1 ∧
        (tiny [0x05] 0).codeBytes[0]? ≠ some 0x03) ∧
      ((tiny [] 0).ready ∧ decode (tiny [] 0).codeBytes = .truncated 0 ∧ (tiny [] 0).codeBytes[0]? ≠ some 0x03) := by
  decide
theorem witness_IllegalOpcodeFails :
    ∀ op ∈ ([0x06, 0x0F, 0x11, 0xFF] : List Byte),
      (tiny [op] 0).ready ∧ (tiny [op] 0).mem.size < 2 ^ 64 ∧ (tiny [op] 0).pc.toNat < (tiny [op] 0).mem.size ∧
      (0x06 ≤ ((tiny [op] 0).mem.get 0).toNat ∧ ((tiny [op] 0).mem.get 0).toNat ≤ 0x0F ∨
        0x11 ≤ ((tiny [op] 0).mem.get 0).toNat) := by decide
theorem witness_OpcodeFetchPastEndFails : (tiny [] 0).ready ∧ (tiny [] 0).mem.size ≤ (tiny [] 0).pc.toNat := by decide
theorem witness_UnterminatedCoutKeepsEvents :
    (tiny [0x03, 0x41] 0).ready ∧ (tiny [0x03, 0x41] 0).mem.size = 2 ∧ (tiny [0x03, 0x41] 0).pc.toNat = 0 ∧
      (tiny [0x03, 0x41] 0).mem.get 0 = 0x03 ∧ (tiny [0x03, 0x41] 0).mem.get 1 ≠ 0 := by decide
theorem witness_StopCancelsRun :
    ({ tiny [] 0 with stop := [true] } : State).run = .running ∧
      ({ tiny [] 0 with stop := [true] } : State).stopAsserted = true := by decide
theorem witness_TerminalStatesTakeNoStep :
    (tiny [] 0).halt.run ≠ .running ∧ (tiny [] 0).cancel.run ≠ .running ∧
      ((tiny [] 0).fail .outOfBounds 0 none).run ≠ .running := by decide
theorem witness_RunningCoreAlwaysSteps : (tiny [] 0).run = .running := rfl
theorem witness_HaltStopsCore : (tiny [0x00] 0).fits 1 := by decide
theorem witness_OutuEmitsNumber :
    (tiny [0x01, 0x00] 0).fits 2 ∧ (tiny [0x01] 0).ready ∧ (tiny [0x01] 0).pc.toNat + 1 = (tiny [0x01] 0).mem.size ∧
      (tiny [0x01] 0).mem.size < 2 ^ 64 ∧ (tiny [0x01] 0).mem.get 0 = 0x01 := by decide
theorem witness_OutcEmitsCharacter :
    (tiny [0x02, 0x00] 0).fits 2 ∧ (tiny [0x02] 0).ready ∧ (tiny [0x02] 0).pc.toNat + 1 = (tiny [0x02] 0).mem.size ∧
      (tiny [0x02] 0).mem.size < 2 ^ 64 ∧ (tiny [0x02] 0).mem.get 0 = 0x02 := by decide
theorem witness_CoutEmitsString : (Instr.cout [0x48, 0x69]).wellFormed = true ∧ (tiny [] 0).fits 4 := by decide
theorem witness_MoutEmitsOperandBytes :
    ((tiny [] 1).resolves (.reg 0x30 0x30 [.h, .h, .h]) = true ∧ (tiny [] 1).fits 4) ∧
      ((tiny [0x07] 0).resolves (.mem 1 0) = true ∧ (tiny [0x07] 0).resolves (.mem 0 1) = true ∧
        (tiny [0x07] 0).fits 6) := by decide
theorem witness_MoutOfPcEmitsNextAddress : (tiny [] 0).fits 4 := by decide
theorem witness_MoutOfBadOperandFails :
    (regDecode (tiny [] 1).gpr.length 0x30 0x31 = none ∧ (tiny [] 1).fits 4) ∧
      ((tiny [0x07] 0).mem.size < (0 : BitVec 32).toNat + (2 : BitVec 7).toNat ∧ (tiny [0x07] 0).fits 6) := by decide
theorem witness_StaFailsUnimplemented : (tiny [] 0).fits (1 + (Operand.mem 0 0).length) := by decide

/-- One general register, and memory of four bytes; `FF 01 00 00`. -/
def uaddState : State := tiny [0xFF, 0x01, 0x00, 0x00] 1

theorem witness_UaddWritesSumAndCarry :
    (uaddState.resolves (.mem 1 0) = true ∧ uaddState.resolves (.reg 0x30 0x30 [.h, .h, .h]) = true ∧
      uaddState.resolves (.reg 0x66 0x6C [.l, .l, .l]) = true ∧ operandWidth (.mem 1 0) = 1 ∧
      operandWidth (.reg 0x30 0x30 [.h, .h, .h]) = 1 ∧ operandWidth (.reg 0x66 0x6C [.l, .l, .l]) = 1 ∧
      uaddState.fits (1 + 5 + 3 + 3)) ∧
      (uaddState.resolves (.mem 0 4) = true ∧ operandWidth (.mem 0 4) = 0 ∧
        uaddState.writesRegByte (.mem 0 4) .fl 0 = false ∧ uaddState.fits (1 + 5 + 5 + 5)) := by decide
theorem witness_UaddFrame :
    uaddState.fits 16 ∧ (∃ t, exec (.uadd (.mem 1 0) (.mem 1 1) (.mem 1 2)) uaddState = .next t) ∧
      storesTo (.mem 1 2) 1 = false ∧ storesTo (.mem 1 2) 3 = false ∧
      uaddState.writesRegByte (.mem 1 2) (.gpr 0) 7 = false ∧ uaddState.writesRegByte (.mem 1 2) .pc 0 = false :=
  ⟨by decide, ⟨_, rfl⟩, by decide, by decide, by decide, by decide⟩
theorem witness_UaddFailsInOrder :
    uaddState.fits 16 ∧
      (uaddState.resolves (.mem 1 4) = false ∧ resolveFailure (.mem 1 4) = .outOfBounds) ∧
      (uaddState.resolves (.mem 1 0) = true ∧ uaddState.resolves (.reg 0x7A 0x7A []) = false ∧
        resolveFailure (.reg 0x7A 0x7A []) = .invalidOperand) ∧
      (uaddState.resolves (.mem 1 0) = true ∧ uaddState.resolves (.mem 2 3) = false) ∧
      (uaddState.resolves (.mem 2 2) = true ∧ operandWidth (.mem 2 2) ≠ operandWidth (.mem 1 0)) ∧
      (uaddState.resolves (.mem 1 3) = true ∧ operandWidth (.mem 1 3) = operandWidth (.mem 1 0) ∧
        operandWidth (.mem 2 2) ≠ operandWidth (.mem 1 0)) := by decide
theorem witness_UaddIsCommutative :
    uaddState.resolves (.mem 1 0) = true ∧ uaddState.resolves (.mem 1 1) = true := by decide
theorem witness_UaddOfZeroCopies :
    uaddState.resolves (.mem 1 0) = true ∧ uaddState.resolves (.mem 1 2) = true ∧ uaddState.resolves (.mem 1 3) = true ∧
      operandWidth (.mem 1 2) = operandWidth (.mem 1 0) ∧ operandWidth (.mem 1 3) = operandWidth (.mem 1 0) ∧
      uaddState.fits 16 ∧ be ((uaddState.atNext 16).operandBytes (.mem 1 2)) = 0 ∧
      uaddState.writesRegByte (.mem 1 3) .fl 0 = false := by decide
theorem witness_UaddToPcJumps :
    uaddState.resolves (.reg 0x30 0x30 []) = true ∧ uaddState.resolves (.reg 0x66 0x6C []) = true ∧
      operandWidth (.reg 0x30 0x30 []) = 8 ∧ operandWidth (.reg 0x66 0x6C []) = 8 ∧ uaddState.fits 10 := by decide
theorem witness_StoredByteIsFetched :
    uaddState.mem.size < 2 ^ 64 ∧ 0 < (1 : BitVec 7).toNat ∧
      uaddState.fits (6 + (Operand.mem 1 0).length + (Operand.mem 1 1).length) ∧
      ∃ t, exec (.uadd (.mem 1 0) (.mem 1 1) (.mem 1 2)) uaddState = .next t ∧ t.run = .running :=
  ⟨by decide, by decide, by decide, _, rfl, rfl⟩
theorem witness_NonArithmeticFrame :
    (∀ d1 d2 d3, Instr.halt ≠ .uadd d1 d2 d3) ∧ (tiny [] 0).fits Instr.halt.length ∧
      (∃ t, exec .halt (tiny [] 0) = .next t) ∧ (∃ t, exec (.sta (.mem 0 0)) (tiny [] 0) = .next t) ∧
      (∃ t, exec (.cout [0x41]) (tiny [] 0) = .next t) :=
  ⟨(fun _ _ _ h => by cases h), by decide, ⟨_, rfl⟩, ⟨_, rfl⟩, ⟨_, rfl⟩⟩
theorem witness_StepKeepsInvariant : uaddState.Inv ∧ ∃ t, step uaddState = .next t := ⟨by decide, _, rfl⟩
theorem witness_CapacityAndRegisterCountAreFixed : ∃ t, step (tiny [0x00] 1) = .next t := ⟨_, rfl⟩
theorem witness_OutputLogOnlyGrows : ∃ t, step (tiny [0x01, 0x05] 0) = .next t ∧ t.out ≠ (tiny [0x01, 0x05] 0).out :=
  ⟨_, rfl, by decide⟩
theorem witness_OnlyUaddWritesData :
    (∃ t, step (tiny [0x01, 0x05] 0) = .next t) ∧ (tiny [0x01, 0x05] 0).codeStream 0 ≠ some 0x10 :=
  ⟨⟨_, rfl⟩, by decide⟩
theorem witness_FailuresArePrecise :
    (tiny [0x05, 0x80, 0x30, 0x30] 0).mem.size < 2 ^ 64 ∧
      ∃ t rec, step (tiny [0x05, 0x80, 0x30, 0x30] 0) = .next t ∧ t.run = .failed rec ∧
        (tiny [0x05, 0x80, 0x30, 0x30] 0).codeStream 0 ≠ some 0x03 :=
  ⟨by decide, _, _, rfl, rfl, by decide⟩
theorem witness_RandomSourceIsNeverUsed : ∃ t, step uaddState = .next t := ⟨_, rfl⟩
theorem witness_ConstructionLoadsImage :
    Construction.accepted { image := [0x00], memSize := some 2, fill := [7], gprInit := [5], flInitRest := 9, seed := 0 } = true := by
  decide
theorem witness_ConstructionRefusesBadInputs :
    (Construction.capacity { image := [0x00], memSize := some 0, fill := [], gprInit := [], flInitRest := 0, seed := 0 } < 1) ∧
      2 ^ 64 ≤ Construction.capacity
        { image := [], memSize := some (2 ^ 64), fill := [], gprInit := [], flInitRest := 0, seed := 0 } ∧
      256 < (List.replicate 257 (0 : Reg)).length := ⟨by decide, by decide, by rw [List.length_replicate]; decide⟩

/-- A core that halts in its first cycle. -/
def haltState : State := tiny [0x00] 0

theorem witness_RunReturnsFirstEndedState :
    (∃ r, haltState.runLoop 1 = some r) ∧ (∃ t, haltState.afterCycles 1 = some t ∧ t.run ≠ .running) ∧
      haltState.runLoop 0 = none := ⟨⟨_, rfl⟩, ⟨_, rfl, by decide⟩, rfl⟩
theorem witness_RunResultIgnoresFuel : ∃ r, haltState.runsTo r := ⟨_, 1, rfl⟩
theorem witness_AssertedStopEndsRun :
    ((haltState.withStop [true]).run = .running ∧ (haltState.withStop [true]).stop[0]? = some true) ∧
      (haltState.withStop [false, true]).stop[1]? = some true := by decide
theorem witness_UnassertedStopNeverCancels :
    haltState.run = .running ∧ (∀ b ∈ (haltState.withStop [false]).stop, b = false) ∧ ∃ r, haltState.runsTo r :=
  ⟨rfl, by decide, _, 1, rfl⟩
theorem witness_EveryProgramCanBeCancelled :
    Construction.accepted { image := [], memSize := none, fill := [], gprInit := [], flInitRest := 0, seed := 0 } = true := by
  decide
theorem witness_ObservedResultsAreEndedRuns : ∃ r, observation [0x00] none 0 r :=
  ⟨_, { image := [0x00], memSize := none, fill := [], gprInit := [], flInitRest := 0, seed := 0 }, [], 1,
    rfl, rfl, rfl, rfl⟩
theorem witness_RenderedTextOnlyGrows : ∃ t, step (tiny [0x01, 0x05] 0) = .next t ∧
    renderLog renderDefault t.out ≠ renderLog renderDefault (tiny [0x01, 0x05] 0).out := ⟨_, rfl, by decide⟩

end Sys2Proof.Tests
end

