-- ==== Sys2Proof/Proofs/Sectors.lean ====
section
/-! Sector access: what reading and writing a sector of a register answer for a path of at most 3 characters, said once,
and the two statements about it (10_state.md R17, R18). -/

namespace Sys2Proof.Machine

/-- Byte `j` of a slice is byte `lo + j` of the whole (00_scope.md R8). -/
theorem slice_getElem? {s : List Byte} {lo hi j : Nat} (hj : j < hi - lo + 1) : (slice s lo hi)[j]? = s[lo + j]? := by
  rw [slice, List.getElem?_take_of_lt hj, List.getElem?_drop]

theorem sectorRange_of_le {p : List Half} (hp : p.length ≤ 3) : sectorRange p = .ok (sectorBounds p) := by
  rcases sectorRange_cases p with ⟨-, e⟩ | ⟨hlong, -⟩
  · exact e
  · exact absurd hp (Nat.not_le.mpr hlong)

theorem State.sectorRead_eq (s : State) (r : RegName) {p : List Half} (hp : p.length ≤ 3) :
    s.sectorRead r p = .ok (slice (regBytes (s.getReg r)) (sectorBounds p).1 (sectorBounds p).2) := by
  simp only [State.sectorRead, sectorRange_of_le hp]

/-- The state with the sector's bytes replaced by `v`: what a write of the sector's length answers
(`State.sectorWrite_eq`). -/
def State.withSector (s : State) (r : RegName) (p : List Half) (v : List Byte) : State :=
  s.setReg r (regOfBytes (splice (regBytes (s.getReg r)) (sectorBounds p).1 (sectorBounds p).2 v))

theorem State.sectorWrite_eq (s : State) (r : RegName) {p : List Half} (v : List Byte) (hp : p.length ≤ 3) :
    s.sectorWrite r p v =
      if v.length = (sectorBounds p).2 - (sectorBounds p).1 + 1 then .ok (s.withSector r p v)
      else .error .busWidthMismatch := by
  simp only [State.sectorWrite, sectorRange_of_le hp, State.withSector]

/-- The bytes of a named register after a sector write of the sector's length. -/
theorem State.withSector_regBytes {s : State} {c0 c1 : Byte} {r : RegName} {p : List Half} {v : List Byte}
    (hr : regDecode s.gpr.length c0 c1 = some r) (hp : p.length ≤ 3)
    (hv : v.length = (sectorBounds p).2 - (sectorBounds p).1 + 1) :
    regBytes ((s.withSector r p v).getReg r) =
      splice (regBytes (s.getReg r)) (sectorBounds p).1 (sectorBounds p).2 v := by
  have ⟨hle, hlt⟩ := sectorBounds_le hp
  rw [State.withSector, State.getReg_setReg_named _ hr]
  exact regBytes_regOfBytes (by rw [splice_length hle (by simpa using hlt) hv, regBytes_length])

/-- Settles O9: the answer is the slice `lo..hi` of the register's 8 bytes. -/
theorem sectorReadCopiesBytes : Obligations.SectorReadCopiesBytes := by
  intro s r p hp
  have ⟨hle, hlt⟩ := sectorBounds_le hp
  have hlen := slice_length (s := regBytes (s.getReg r)) hle (by simpa using hlt)
  exact ⟨_, s.sectorRead_eq r hp, hlen, fun j hj => slice_getElem? (hlen ▸ hj)⟩

/-- Settles O10: the written register holds the splice of its bytes, and a register write touches no other field. -/
theorem sectorWriteReadsBack : Obligations.SectorWriteReadsBack := by
  intro s c0 c1 r p v hr hp
  have ⟨hle, hlt⟩ := sectorBounds_le hp
  have hlt' : (sectorBounds p).2 < (regBytes (s.getReg r)).length := by simpa using hlt
  rw [s.sectorWrite_eq r v hp]
  refine ⟨fun hv => ⟨s.withSector r p v, if_pos hv, ?readBack, ?otherBytes, ?otherRegs, ?fields⟩, fun hv => if_neg hv⟩
  case readBack =>
    rw [State.sectorRead_eq _ r hp, State.withSector_regBytes hr hp hv, slice_splice hle hlt' hv]
  case otherBytes =>
    intro j hj
    rw [State.withSector_regBytes hr hp hv, splice_getElem?_outside hle hlt' hv hj]
  case otherRegs =>
    exact fun q hq => State.getReg_setReg_ne s _ hq
  case fields =>
    simp [State.withSector]

end Sys2Proof.Machine
end

