-- ==== Sys2Proof/Proofs/MemoryAccess.lean ====
section
/-! Bounds-checked memory access: what a read and a write answer, said once as an equation each, and the two statements
about them (20_memory.md R37 to R39). -/

namespace Sys2Proof.Machine

theorem Memory.read_eq (m : Memory) (a w : Nat) :
    m.read a w = if a + w ≤ m.size then .ok (m.getBytes a w) else .error .outOfBounds := by
  rcases m.read_cases a w with ⟨hin, e⟩ | ⟨hout, e⟩
  · rw [e, if_pos hin]
  · rw [e, if_neg (Nat.not_le.mpr hout)]

theorem Memory.write_eq (m : Memory) (a w : Nat) (v : List Byte) :
    m.write a w v =
      if a + w ≤ m.size then
        if v.length = w then .ok (m.putBytes a v) else .error .busWidthMismatch
      else .error .outOfBounds := by
  simp only [Memory.write, Memory.inBounds, decide_eq_true_eq]

theorem Memory.getBytes_getElem? (m : Memory) (a : Nat) {w j : Nat} (hj : j < w) :
    (m.getBytes a w)[j]? = some (m.get (a + j)) := by
  simp [Memory.getBytes, hj]

theorem Memory.getBytes_eq_replicate {m : Memory} {a w : Nat} {b : Byte} (h : ∀ j, j < w → m.get (a + j) = b) :
    m.getBytes a w = List.replicate w b := by
  refine List.eq_replicate_iff.mpr ⟨m.getBytes_length a w, fun c hc => ?_⟩
  obtain ⟨j, hj, rfl⟩ := List.mem_map.mp hc
  exact h j (List.mem_range.mp hj)

/-- Settles O11: in bounds the answer is the list of the range's bytes. -/
theorem memoryReadIsBounded : Obligations.MemoryReadIsBounded := by
  intro m a w
  rw [Memory.read_eq]
  refine ⟨fun hin => ⟨m.getBytes a w, if_pos hin, m.getBytes_length a w, ?bytes, ?zeros⟩,
    fun hout => if_neg (Nat.not_le.mpr hout)⟩
  case bytes => exact fun j hj => m.getBytes_getElem? a hj
  case zeros => exact Memory.getBytes_eq_replicate

/-- Settles O12: the written memory is `putBytes`, which reads back and leaves every byte outside the range. -/
theorem memoryWriteReadsBack : Obligations.MemoryWriteReadsBack := by
  intro m a w v
  rw [Memory.write_eq]
  refine ⟨?written, fun hout => if_neg (Nat.not_le.mpr hout), fun hin hv => by rw [if_pos hin, if_neg hv]⟩
  case written =>
    rintro hin rfl
    refine ⟨m.putBytes a v, by rw [if_pos hin, if_pos rfl], ?readBack, m.putBytes_size a v, ?otherBytes⟩
    case readBack => rw [Memory.read_eq, Memory.putBytes_size, if_pos hin, Memory.getBytes_putBytes]
    case otherBytes => exact fun x hx => m.get_putBytes_outside hx

end Sys2Proof.Machine
end

