-- ==== Sys2Proof/Proofs/ReservedBits.lean ====
section
/-! The first byte of a descriptor: which bits of it the decoder reads and the encoder writes, and the statement about
the reserved ones (30_encoding.md R65 to R68, R70). -/

namespace Sys2Proof

/-! ## The register-direct first byte -/

/-- The path is read from the length bits and the mask bits the length selects, and from no other bit. -/
theorem pathOfByte_congr {b b' : Byte} (hlen : pathLength b = pathLength b')
    (hmask : ∀ k, k < pathLength b → b.getLsbD (2 + k) = b'.getLsbD (2 + k)) : pathOfByte b = pathOfByte b' := by
  rw [pathOfByte, pathOfByte, ← hlen]
  exact List.map_congr_left fun k hk => by rw [hmask k (List.mem_range.mp hk)]

theorem pathMask_lt (p : List Half) : pathMask p < 2 ^ p.length := by
  induction p with
  | nil => decide
  | cons c p ih => cases c <;> simp only [pathMask, List.length_cons, Nat.pow_succ] <;> omega

/-- Below bit 7 the first byte of a path of length `LL` is a number of `2 + LL` bits. -/
theorem pathByte_getLsbD_reserved {p : List Half} (hp : p.length ≤ 3) {j : Nat} (hlo : 2 + p.length ≤ j)
    (hhi : j ≤ 6) : (pathByte p).getLsbD j = false := by
  have hsmall : 4 * pathMask p + p.length < 2 ^ j := by
    calc 4 * pathMask p + p.length < 2 ^ (2 + p.length) := by rw [Nat.pow_add]; have := pathMask_lt p; omega
      _ ≤ 2 ^ j := Nat.pow_le_pow_right (by decide) hlo
  have hbit7 : 0x80 + 4 * pathMask p + p.length = 2 ^ 7 + (4 * pathMask p + p.length) := Nat.add_assoc ..
  rw [pathByte, BitVec.getLsbD_ofNat, hbit7, Nat.testBit_two_pow_add_gt (by omega), Nat.testBit_lt_two_pow hsmall,
    Bool.and_false]

/-! ## The memory-direct first byte -/

/-- The width takes bits 6..0, so with bit 7 clear it determines the byte. -/
theorem eq_of_setWidth_seven_eq {b b' : Byte} (h7 : b.getLsbD 7 = false) (h7' : b'.getLsbD 7 = false)
    (hw : b.setWidth 7 = b'.setWidth 7) : b = b' := by
  refine BitVec.eq_of_getLsbD_eq fun i hi => ?_
  rcases Nat.lt_succ_iff_lt_or_eq.mp hi with hi | rfl
  · simpa [hi] using congrArg (·.getLsbD i) hw
  · rw [h7, h7']

/-! ## Decoding one descriptor -/

section
variable {src src' : Stream} {n : Nat}

theorem decodeOperand_reg {b1 c0 c1 : Byte} {p : List Half} (hb : src n = some b1) (h7 : b1.getLsbD 7 = true)
    (h0 : src (n + 1) = some c0) (h1 : src (n + 2) = some c1) (hp : pathOfByte b1 = p) :
    decodeOperand src n = .done (.reg c0 c1 p) (n + 3) := by
  simp only [decodeOperand, hb, h7, if_true, h0, h1, hp]

theorem decodeOperand_mem {b1 a3 a2 a1 a0 : Byte} (hb : src n = some b1) (h7 : b1.getLsbD 7 = false)
    (h3 : src (n + 1) = some a3) (h2 : src (n + 2) = some a2) (h1 : src (n + 3) = some a1)
    (h0 : src (n + 4) = some a0) :
    decodeOperand src n = .done (.mem (b1.setWidth 7) (BitVec.ofNat 32 (be [a3, a2, a1, a0]))) (n + 5) := by
  simp only [decodeOperand, hb, h7, Bool.false_eq_true, if_false, h3, h2, h1, h0]

/-- Of a register-direct first byte the decoder uses the path only, also where the descriptor is cut. -/
theorem decodeOperand_reg_congr {b b' : Byte} (hb : src n = some b) (hb' : src' n = some b')
    (h7 : b.getLsbD 7 = true) (h7' : b'.getLsbD 7 = true) (hp : pathOfByte b = pathOfByte b')
    (hrest : ∀ k, n < k → src k = src' k) : decodeOperand src n = decodeOperand src' n := by
  have h1 : src (n + 1) = src' (n + 1) := hrest _ (by omega)
  have h2 : src (n + 2) = src' (n + 2) := hrest _ (by omega)
  simp only [decodeOperand, hb, hb', h7, h7', if_true, hp, h1, h2]

end

theorem listStream_cons_of_pos (b b' : Byte) (rest : List Byte) {k : Nat} (hk : 0 < k) :
    listStream (b :: rest) k = listStream (b' :: rest) k := by
  obtain ⟨k, rfl⟩ := Nat.exists_eq_succ_of_ne_zero hk.ne'
  rfl

/-- Settles O4: the decoder takes the path from the bits that are not reserved, the encoder writes the reserved ones 0,
and a memory-direct first byte is its width. -/
theorem reservedBitsAreIgnored : Obligations.ReservedBitsAreIgnored := by
  refine ⟨?ignored, ?written, ?examples, ?memoryDirect⟩
  case ignored =>
    intro b b' rest h7 h7' hlen hmask
    exact decodeOperand_reg_congr rfl rfl h7 h7' (pathOfByte_congr hlen hmask)
      fun k hk => listStream_cons_of_pos b b' rest hk
  case written =>
    exact fun c0 c1 p hp => ⟨pathByte p, rfl, fun j hlo hhi => pathByte_getLsbD_reserved hp hlo hhi⟩
  case examples =>
    intro c0 c1
    have decodes (b : Byte) (p : List Half) (h7 : b.getLsbD 7 = true) (hp : pathOfByte b = p) :
        decodeOperand (listStream [b, c0, c1]) 0 = .done (.reg c0 c1 p) 3 := decodeOperand_reg rfl h7 rfl rfl hp
    exact ⟨decodes 0xE3 _ (by decide) (by decide), decodes 0x83 _ (by decide) (by decide),
      decodes 0x89 _ (by decide) (by decide), decodes 0x81 _ (by decide) (by decide)⟩
  case memoryDirect =>
    intro b b' a3 a2 a1 a0 h7 h7' h
    rw [decodeOperand_mem (b1 := b) rfl h7 rfl rfl rfl rfl, decodeOperand_mem (b1 := b') rfl h7' rfl rfl rfl rfl] at h
    injection h with hd
    injection hd with hw
    exact eq_of_setWidth_seven_eq h7 h7' hw

end Sys2Proof
end

