-- ==== Sys2Proof/Proofs/IllegalOpcode.lean ====
section
/-! The opcodes of the map, what the decoder and the step answer for any other one, and the statement about them
(30_encoding.md R73, R74). -/

namespace Sys2Proof

theorem isOpcode_iff (op : Byte) : isOpcode op = true ↔ op.toNat ≤ 0x05 ∨ op.toNat = 0x10 := by
  simp only [isOpcode, opHalt, opOutu, opOutc, opCout, opMout, opSta, opUadd, Bool.or_eq_true, beq_iff_eq]
  bv_omega

theorem decodeStream_illegal {src : Stream} {op : Byte} (h : src 0 = some op) (hop : isOpcode op = false)
    (fuel : Nat) : decodeStream src fuel = .illegal op := by
  simp only [isOpcode, Bool.or_eq_false_iff, beq_eq_false_iff_ne] at hop
  simp [decodeStream, h, hop]

namespace Machine

/-- A byte of memory below the capacity is the first of the instruction stream at its address. -/
theorem State.codeStream_zero {s : State} (hsize : s.mem.size < 2 ^ 64) (hpc : s.pc.toNat < s.mem.size) :
    s.codeStream 0 = some (s.mem.get s.pc.toNat) := by
  rw [State.codeStream_eq, if_pos (by omega), Nat.add_zero]

theorem step_of_illegal {s : State} {op : Byte} (hs : s.ready) (h : s.sampleStop.fetchInstr = .illegal op) :
    step s = .next (s.sampleStop.failIllegal op) := by
  obtain ⟨hrun, hstop⟩ := hs
  simp [step, hrun, hstop, h]

/-- Settles O20: a byte outside the opcode map decodes to no instruction, and the step that fetches it fails. -/
theorem illegalOpcodeFails : Obligations.IllegalOpcodeFails := by
  intro s hs hsize hpc hrange
  have hop : isOpcode (s.mem.get s.pc.toNat) = false := by
    rw [Bool.eq_false_iff, Ne, isOpcode_iff]
    omega
  have hfetch : s.sampleStop.fetchInstr = .illegal (s.mem.get s.pc.toNat) :=
    decodeStream_illegal (by rw [State.sampleStop_codeStream, State.codeStream_zero hsize hpc]) hop _
  exact ⟨_, _, step_of_illegal hs hfetch, rfl, rfl⟩

end Machine
end Sys2Proof
end

