-- ==== Sys2Proof/Proofs/ControlIo.lean ====
section
/-! HALT, OUTU and OUTC: their meanings over `State.atNext`, how a cycle ends whose instruction is cut by the end of
memory, and the three statements about them (41_control_io.md R96 to R98). -/

namespace Sys2Proof

/-- The two opcodes of one inline byte (30_encoding.md R73), cut after the opcode. -/
theorem decodeStream_inlineByte_cut {src : Stream} {op : Byte} (hop : op = opOutu ∨ op = opOutc)
    (h0 : src 0 = some op) (h1 : src 1 = none) (fuel : Nat) : decodeStream src fuel = .truncated 1 := by
  rcases hop with rfl | rfl <;> simp [decodeStream, h0, h1, opHalt, opOutu, opOutc]

namespace Machine

/-! ## The meanings -/

theorem exec_halt (s : State) : exec .halt s = .next { s.atNext 1 with run := .halted } := by
  rw [State.atNext_eq_advance]; rfl

theorem exec_outu (b : Byte) (s : State) :
    exec (.outu b) s = .next { s.atNext 2 with out := s.out ++ [.u b] } := by
  rw [State.atNext_eq_advance]; rfl

theorem exec_outc (b : Byte) (s : State) :
    exec (.outc b) s = .next { s.atNext 2 with out := s.out ++ [.c b] } := by
  rw [State.atNext_eq_advance]; rfl

/-! ## A cycle cut by the end of memory -/

/-- No byte is fetched at or past the capacity (40_cycle.md R83). -/
theorem State.codeStream_none_of_size_le {s : State} {k : Nat} (h : s.mem.size ≤ s.pc.toNat + k) :
    s.codeStream k = none := by
  rw [State.codeStream_eq, if_neg (by omega)]

theorem step_of_truncated {s : State} {n : Nat} (hs : s.ready) (h : s.sampleStop.fetchInstr = .truncated n) :
    step s = .next (s.sampleStop.failTruncated n) := by
  obtain ⟨hrun, hstop⟩ := hs
  simp [step, hrun, hstop, h]

/-- A cut instruction other than COUT has emitted nothing (41_control_io.md R99). -/
theorem State.failTruncated_out {s : State} (h : s.codeStream 0 ≠ some opCout) (n : Nat) :
    (s.failTruncated n).out = s.out := by
  simp [State.failTruncated, State.partialChars, h]

/-- OUTU and OUTC at the last byte of memory: the fetch of the inline byte fails and nothing is emitted
(40_cycle.md R83; 60_exceptions.md R108). -/
theorem inlineByte_cut_fails {s : State} {op : Byte} (hop : op = opOutu ∨ op = opOutc) (hs : s.ready)
    (hsize : s.mem.size < 2 ^ 64) (hpc : s.pc.toNat + 1 = s.mem.size) (hget : s.mem.get s.pc.toNat = op) :
    ∃ t rec, step s = .next t ∧ t.run = .failed rec ∧ rec.kind = .outOfBounds ∧ t.out = s.out := by
  have h0 : s.sampleStop.codeStream 0 = some op := by
    rw [State.sampleStop_codeStream, State.codeStream_zero hsize (by omega), hget]
  have h1 : s.sampleStop.codeStream 1 = none := State.codeStream_none_of_size_le hpc.ge
  have hcout : s.sampleStop.codeStream 0 ≠ some opCout := by
    rw [h0]
    rcases hop with rfl | rfl <;> decide
  exact ⟨_, _, step_of_truncated hs (decodeStream_inlineByte_cut hop h0 h1 _), rfl, rfl,
    State.failTruncated_out hcout 1⟩

/-! ## The statements -/

/-- Settles O26: the halted state is no Running one, and only a Running core steps. -/
theorem haltStopsCore : Obligations.HaltStopsCore := by
  refine ⟨rfl, fun s _ => ⟨exec_halt s, fun t hstep => ?_⟩⟩
  have hrunning : RunState.halted = .running := (step_cases hstep).1
  cases hrunning

/-- Settles O27: with no byte after the opcode the instruction is cut, and a cut OUTU emits nothing. -/
theorem outuEmitsNumber : Obligations.OutuEmitsNumber :=
  ⟨fun _ => rfl, fun b s _ => exec_outu b s, fun _ hs hsize hpc => inlineByte_cut_fails (.inl rfl) hs hsize hpc⟩

/-- Settles O28: with no byte after the opcode the instruction is cut, and a cut OUTC emits nothing. -/
theorem outcEmitsCharacter : Obligations.OutcEmitsCharacter :=
  ⟨fun _ => rfl, fun b s _ => exec_outc b s, fun _ hs hsize hpc => inlineByte_cut_fails (.inr rfl) hs hsize hpc⟩

end Machine
end Sys2Proof
end

