-- ==== Sys2Proof/Proofs/OperandCodec.lean ====
section
/-! The operand codec and the decoder as inverses: what it means that a stream holds bytes, that decoding an encoding
gives it back, and which bytes a descriptor was read from (30_encoding.md R59, R65 to R69). -/

namespace Sys2Proof

/-! ## Streams that hold bytes -/

/-- The stream has the bytes of the list from offset `n` on. -/
def Stream.Holds (src : Stream) : Nat → List Byte → Prop
  | _, [] => True
  | n, b :: bs => src n = some b ∧ Stream.Holds src (n + 1) bs

section
variable {src : Stream} {n : Nat}

theorem Stream.holds_cons {b : Byte} {bs : List Byte} :
    Stream.Holds src n (b :: bs) ↔ src n = some b ∧ Stream.Holds src (n + 1) bs := Iff.rfl

theorem Stream.holds_append {xs ys : List Byte} :
    Stream.Holds src n (xs ++ ys) ↔ Stream.Holds src n xs ∧ Stream.Holds src (n + xs.length) ys := by
  induction xs generalizing n with
  | nil => simp [Stream.Holds]
  | cons x xs ih =>
    have hn : n + 1 + xs.length = n + (x :: xs).length := by simp; omega
    rw [List.cons_append, Stream.holds_cons, ih, hn, Stream.holds_cons, and_assoc]

theorem Stream.holds_iff {bs : List Byte} :
    Stream.Holds src n bs ↔ ∀ k b, bs[k]? = some b → src (n + k) = some b := by
  induction bs generalizing n with
  | nil => simp [Stream.Holds]
  | cons b bs ih =>
    rw [Stream.holds_cons, ih]
    constructor
    · rintro ⟨hb, hbs⟩ k c hc
      cases k with
      | zero => rw [← hc]; exact hb
      | succ k => rw [← Nat.add_assoc, Nat.add_right_comm]; exact hbs k c hc
    · refine fun h => ⟨h 0 b rfl, fun k c hc => ?_⟩
      rw [Nat.add_right_comm]
      exact h (k + 1) c hc

theorem Stream.holds_append_listStream (bs rest : List Byte) : Stream.Holds (listStream (bs ++ rest)) 0 bs := by
  refine Stream.holds_iff.mpr fun k b hb => ?_
  rw [Nat.zero_add, listStream, List.getElem?_append_left (List.getElem?_eq_some_iff.mp hb).1, hb]

/-- What a list's stream holds at its front is the front of the list. -/
theorem Stream.eq_take_of_holds {bs xs : List Byte} (h : Stream.Holds (listStream bs) 0 xs) :
    xs = bs.take xs.length := by
  refine List.ext_getElem? fun k => ?_
  rcases Nat.lt_or_ge k xs.length with hk | hk
  · have hget := List.getElem?_eq_getElem hk
    have hbyte := Stream.holds_iff.mp h k _ hget
    rw [Nat.zero_add] at hbyte
    rw [hget, List.getElem?_take_of_lt hk]
    exact hbyte.symm
  · rw [List.getElem?_eq_none hk, List.getElem?_take_eq_none hk]

end

/-! ## The register-direct first byte -/

theorem pathOfByte_length_le (b1 : Byte) : (pathOfByte b1).length ≤ 3 := by
  simp only [pathOfByte, pathLength, List.length_map, List.length_range]
  omega

theorem pathByte_spec {p : List Half} (hp : p.length ≤ 3) :
    (pathByte p).getLsbD 7 = true ∧ pathOfByte (pathByte p) = p := by
  match p, hp with
  | [], _ => decide
  | [a], _ => cases a <;> decide
  | [a, b], _ => cases a <;> cases b <;> decide
  | [a, b, c], _ => cases a <;> cases b <;> cases c <;> decide
  | _ :: _ :: _ :: _ :: _, h => exact absurd h (by simp)

/-- Bits 1..0 and the mask bits they select are what the path says. -/
theorem bits_eq_of_pathOfByte_eq {b b' : Byte} (h : pathOfByte b = pathOfByte b') :
    pathLength b = pathLength b' ∧ ∀ k, k < pathLength b → b.getLsbD (2 + k) = b'.getLsbD (2 + k) := by
  have hlen : pathLength b = pathLength b' := by simpa [pathOfByte] using congrArg List.length h
  refine ⟨hlen, fun k hk => ?_⟩
  have hk' : k < pathLength b' := hlen ▸ hk
  have hget := congrArg (·[k]?) h
  simp only [pathOfByte, List.getElem?_map, List.getElem?_range, hk, hk', Option.map_some, Option.some.injEq] at hget
  cases hb : b.getLsbD (2 + k) <;> cases hb' : b'.getLsbD (2 + k) <;> simp_all

/-- A register-direct first byte whose reserved bits are 0 is the one the encoder writes for its path. -/
theorem pathByte_pathOfByte {b : Byte} (h7 : b.getLsbD 7 = true)
    (hres : ∀ j, 2 + pathLength b ≤ j → j ≤ 6 → b.getLsbD j = false) : pathByte (pathOfByte b) = b := by
  have hp := pathOfByte_length_le b
  obtain ⟨h7', hpath⟩ := pathByte_spec hp
  obtain ⟨hlen, hmask⟩ := bits_eq_of_pathOfByte_eq hpath
  have hplen : (pathOfByte b).length = pathLength b := by simp [pathOfByte]
  rw [hlen] at hmask
  refine BitVec.eq_of_getLsbD_eq fun j hj => ?_
  by_cases hlow : j < 2
  · have hmod : (pathByte (pathOfByte b)).toNat % 2 ^ 2 = b.toNat % 2 ^ 2 := hlen
    have hbit := congrArg (·.testBit j) hmod
    simp only [Nat.testBit_mod_two_pow, hlow, decide_true, Bool.true_and] at hbit
    exact hbit
  by_cases hmid : j < 2 + pathLength b
  · have := hmask (j - 2) (by omega)
    rwa [show 2 + (j - 2) = j by omega] at this
  by_cases htop : j = 7
  · rw [htop, h7, h7']
  · rw [hres j (by omega) (by omega), pathByte_getLsbD_reserved hp (by omega) (by omega)]

/-! ## The memory-direct descriptor -/

theorem setWidth_eight_width (w : BitVec 7) : (w.setWidth 8).getLsbD 7 = false ∧ (w.setWidth 8).setWidth 7 = w := by
  refine ⟨by simp, BitVec.eq_of_toNat_eq ?_⟩
  have := w.isLt
  simp only [BitVec.toNat_setWidth]
  omega

theorem setWidth_seven_of_msb_clear {b : Byte} (h7 : b.getLsbD 7 = false) : (b.setWidth 7).setWidth 8 = b := by
  obtain ⟨hclear, hwidth⟩ := setWidth_eight_width (b.setWidth 7)
  exact eq_of_setWidth_seven_eq hclear h7 hwidth

/-! ## Decoding an encoding -/

section
variable {src : Stream} {n : Nat}

theorem decodeOperand_of_holds {d : Operand} (hd : d.wellFormed = true) (h : Stream.Holds src n (encodeOperand d)) :
    decodeOperand src n = .done d (n + d.length) := by
  cases d with
  | reg c0 c1 p =>
    obtain ⟨hb, h0, h1, -⟩ := h
    obtain ⟨h7, hp⟩ := pathByte_spec (by simpa [Operand.wellFormed] using hd)
    exact decodeOperand_reg hb h7 h0 h1 hp
  | mem w a =>
    obtain ⟨hb, h3, h2, h1, h0, -⟩ := h
    obtain ⟨h7, hw⟩ := setWidth_eight_width w
    have ha : be (tobe 4 a.toNat) = a.toNat := be_tobe_of_lt a.isLt
    rw [decodeOperand_mem hb h7 h3 h2 h1 h0, hw]
    have haddr : BitVec.ofNat 32 (be (tobe 4 a.toNat)) = a := by rw [ha, BitVec.ofNat_toNat, BitVec.setWidth_eq]
    exact congrArg (fun a => Parsed.done (Operand.mem w a) (n + 5)) haddr

theorem decodeString_of_holds {str : List Byte} (hstr : wellFormedString str = true)
    (h : Stream.Holds src n (str ++ [0x00])) {fuel : Nat} (hfuel : str.length < fuel) :
    decodeString src fuel n = .done str (n + str.length + 1) := by
  induction str generalizing n fuel with
  | nil =>
    obtain ⟨fuel, rfl⟩ := Nat.exists_eq_succ_of_ne_zero (by omega : fuel ≠ 0)
    simp [decodeString, h.1]
  | cons b str ih =>
    obtain ⟨fuel, rfl⟩ := Nat.exists_eq_succ_of_ne_zero (by omega : fuel ≠ 0)
    obtain ⟨hb, hrest⟩ := h
    simp only [wellFormedString, List.all_cons, Bool.and_eq_true, bne_iff_ne] at hstr
    rw [decodeString, hb]
    simp only [if_neg hstr.1, ih hstr.2 hrest (by simpa using hfuel)]
    congr 1
    simp; omega

/-- One descriptor's encoding at offset `n` is decoded and the rest goes on after it. -/
theorem withOperand_of_holds {d : Operand} (hd : d.wellFormed = true) (h : Stream.Holds src n (encodeOperand d))
    (k : Operand → Nat → DecodeResult) : withOperand src n k = k d (n + d.length) := by
  rw [withOperand, decodeOperand_of_holds hd h]

end

/-! ## The dispatch: one equation for each opcode (40_cycle.md R79) -/

section
variable {src : Stream} (fuel : Nat)

theorem decodeStream_halt (h : src 0 = some opHalt) : decodeStream src fuel = .ok .halt 1 := by
  simp [decodeStream, h]

theorem decodeStream_outu (h : src 0 = some opOutu) :
    decodeStream src fuel = (src 1).elim (.truncated 1) (fun b => .ok (.outu b) 2) := by
  cases h1 : src 1 <;> simp [decodeStream, h, h1, opOutu, opHalt]

theorem decodeStream_outc (h : src 0 = some opOutc) :
    decodeStream src fuel = (src 1).elim (.truncated 1) (fun b => .ok (.outc b) 2) := by
  cases h1 : src 1 <;> simp [decodeStream, h, h1, opOutc, opOutu, opHalt]

theorem decodeStream_cout_done {str : List Byte} {m : Nat} (h : src 0 = some opCout)
    (hstr : decodeString src fuel 1 = .done str m) : decodeStream src fuel = .ok (.cout str) m := by
  simp [decodeStream, h, hstr, opCout, opOutc, opOutu, opHalt]

theorem decodeStream_cout_short {m : Nat} (h : src 0 = some opCout) (hstr : decodeString src fuel 1 = .short m) :
    decodeStream src fuel = .truncated m := by
  simp [decodeStream, h, hstr, opCout, opOutc, opOutu, opHalt]

theorem decodeStream_mout (h : src 0 = some opMout) :
    decodeStream src fuel = withOperand src 1 (fun d m => .ok (.mout d) m) := by
  simp [decodeStream, h, opMout, opCout, opOutc, opOutu, opHalt]

theorem decodeStream_sta (h : src 0 = some opSta) :
    decodeStream src fuel = withOperand src 1 (fun d m => .ok (.sta d) m) := by
  simp [decodeStream, h, opSta, opMout, opCout, opOutc, opOutu, opHalt]

theorem decodeStream_uadd (h : src 0 = some opUadd) :
    decodeStream src fuel =
      withOperand src 1 (fun d1 m1 =>
        withOperand src m1 (fun d2 m2 => withOperand src m2 (fun d3 m3 => .ok (.uadd d1 d2 d3) m3))) := by
  simp [decodeStream, h, opUadd, opSta, opMout, opCout, opOutc, opOutu, opHalt]

end

/-- The decoder on any stream that begins with an encoding. The fuel has to cover the bytes after the opcode. -/
theorem decodeStream_of_holds {src : Stream} {i : Instr} (hi : i.wellFormed = true)
    (h : Stream.Holds src 0 (encode i)) {fuel : Nat} (hfuel : i.length ≤ fuel + 1) :
    decodeStream src fuel = .ok i i.length := by
  cases i with
  | halt => exact decodeStream_halt fuel h.1
  | outu b => rw [decodeStream_outu fuel h.1, h.2.1]; rfl
  | outc b => rw [decodeStream_outc fuel h.1, h.2.1]; rfl
  | cout str =>
    have hlt : str.length < fuel := by simp only [Instr.length] at hfuel; omega
    have hlen : 1 + str.length + 1 = (Instr.cout str).length := by simp only [Instr.length]; omega
    rw [decodeStream_cout_done fuel h.1 (decodeString_of_holds hi h.2 hlt), Nat.zero_add, hlen]
  | mout d => rw [decodeStream_mout fuel h.1, withOperand_of_holds hi h.2]; rfl
  | sta d => rw [decodeStream_sta fuel h.1, withOperand_of_holds hi h.2]; rfl
  | uadd d1 d2 d3 =>
    obtain ⟨hop, hrest⟩ := h
    simp only [Stream.holds_append, List.length_append, Laws.encodeOperand_length, ← Nat.add_assoc] at hrest
    obtain ⟨⟨h1, h2⟩, h3⟩ := hrest
    simp only [Instr.wellFormed, Bool.and_eq_true] at hi
    obtain ⟨⟨hd1, hd2⟩, hd3⟩ := hi
    rw [decodeStream_uadd fuel hop, withOperand_of_holds hd1 h1, withOperand_of_holds hd2 h2,
      withOperand_of_holds hd3 h3, Nat.zero_add]
    rfl

theorem encode_length (i : Instr) : (encode i).length = i.length := by
  cases i with
  | halt => exact Laws.EncodeLength.halt
  | outu b => exact Laws.EncodeLength.outu b
  | outc b => exact Laws.EncodeLength.outc b
  | cout str => exact Laws.EncodeLength.cout str
  | mout d => exact Laws.EncodeLength.mout d
  | sta d => exact Laws.EncodeLength.sta d
  | uadd d1 d2 d3 => exact Laws.EncodeLength.uadd d1 d2 d3

/-- Settles O1: the list's stream begins with the encoding, and the decoder reads no more than it. -/
theorem decodeOfEncodeGivesInstruction : Obligations.DecodeOfEncodeGivesInstruction := by
  intro i rest hi
  have hfuel : i.length ≤ (encode i ++ rest).length + 1 := by
    rw [List.length_append, encode_length]
    omega
  rw [encode_length]
  exact decodeStream_of_holds hi (Stream.holds_append_listStream _ rest) hfuel

/-! ## The bytes a descriptor was read from -/

section
variable {src : Stream} {n m : Nat}

/-- The two forms of a descriptor that was read whole, with the bytes it was read from (30_encoding.md R67). -/
theorem decodeOperand_done {d : Operand} (h : decodeOperand src n = .done d m) :
    (∃ b1 c0 c1, Stream.Holds src n [b1, c0, c1] ∧ b1.getLsbD 7 = true ∧ d = .reg c0 c1 (pathOfByte b1) ∧ m = n + 3) ∨
      ∃ b1 a3 a2 a1 a0, Stream.Holds src n [b1, a3, a2, a1, a0] ∧ b1.getLsbD 7 = false ∧
        d = .mem (b1.setWidth 7) (BitVec.ofNat 32 (be [a3, a2, a1, a0])) ∧ m = n + 5 := by
  unfold decodeOperand at h
  split at h
  · cases h
  next b1 hb =>
  split at h
  · next h7 =>
    split at h
    · cases h
    next c0 h0 =>
    split at h
    · cases h
    next c1 h1 =>
    cases h
    exact .inl ⟨b1, c0, c1, ⟨hb, h0, h1, trivial⟩, h7, rfl, rfl⟩
  · next h7 =>
    split at h
    · cases h
    next a3 h3 =>
    split at h
    · cases h
    next a2 h2 =>
    split at h
    · cases h
    next a1 h1 =>
    split at h
    · cases h
    next a0 h0 =>
    cases h
    exact .inr ⟨b1, a3, a2, a1, a0, ⟨hb, h3, h2, h1, h0, trivial⟩, by simpa using h7, rfl, rfl⟩

end

/-- Settles O2: a first byte with reserved bits 0 is the one written for its path or its width. -/
theorem operandCodecIsInverse : Obligations.OperandCodecIsInverse := by
  refine ⟨?decodeEncode, ?encodeDecode⟩
  case decodeEncode =>
    intro d rest hd
    rw [decodeOperand_of_holds hd (Stream.holds_append_listStream _ rest), Nat.zero_add, Laws.encodeOperand_length]
  case encodeDecode =>
    intro b1 bs d n h hres
    rcases decodeOperand_done h with ⟨b, c0, c1, hbytes, h7, rfl, rfl⟩ | ⟨b, a3, a2, a1, a0, hbytes, h7, rfl, rfl⟩
    · have hb : b1 = b := Option.some.inj hbytes.1
      subst hb
      rw [encodeOperand, pathByte_pathOfByte h7 (hres h7)]
      exact Stream.eq_take_of_holds hbytes
    · have haddr : tobe 4 (be [a3, a2, a1, a0] % 2 ^ 32) = [a3, a2, a1, a0] := by
        have hlt : be [a3, a2, a1, a0] < 2 ^ 32 := by simpa using be_lt [a3, a2, a1, a0]
        rw [Nat.mod_eq_of_lt hlt]
        exact tobe_be [a3, a2, a1, a0]
      rw [encodeOperand, BitVec.toNat_ofNat, haddr, setWidth_seven_of_msb_clear h7]
      exact Stream.eq_take_of_holds hbytes

end Sys2Proof
end

