-- ==== Sys2Proof/Proofs/DecoderContract.lean ====
section
/-! What the decoder answers on any stream: the instruction, the illegal opcode or the cut it reports, said once of the
bytes it has read, and the statements about decoded words (30_encoding.md R59, R67, R73, R74). -/

namespace Sys2Proof

/-! ## The contract of the decoder -/

/-- Every byte of the stream at the offsets `n .. m - 1` can be fetched. -/
def Stream.Fetched (src : Stream) (n m : Nat) : Prop :=
  ∀ k, n ≤ k → k < m → (src k).isSome = true

/-- An answer to reading a part of an instruction from offset `n`: the part, of which `p` holds at the offset after it,
or the first byte that cannot be fetched. -/
def Parsed.Describes {α : Type} (p : α → Nat → Prop) (src : Stream) (n : Nat) : Parsed α → Prop
  | .done a m => p a m ∧ Stream.Fetched src n m
  | .short m => src m = none ∧ n ≤ m ∧ Stream.Fetched src n m

/-- An answer of the decoder: a well-formed instruction of its opcode and length, an opcode, or the first byte that
cannot be fetched. -/
def DecodeResult.Describes (src : Stream) : DecodeResult → Prop
  | .ok i n => i.wellFormed = true ∧ n = i.length ∧ src 0 = some i.opcode ∧ Stream.Fetched src 0 n
  | .illegal op => src 0 = some op
  | .truncated n => src n = none ∧ Stream.Fetched src 0 n

section
variable {src : Stream} {n m : Nat}

theorem Stream.fetched_self : Stream.Fetched src n n := fun _ h h' => absurd h' (by omega)

theorem Stream.Fetched.succ (h : Stream.Fetched src n m) {b : Byte} (hb : src m = some b) :
    Stream.Fetched src n (m + 1) := by
  intro k hk hk'
  rcases Nat.lt_succ_iff_lt_or_eq.mp hk' with hlt | rfl
  · exact h k hk hlt
  · rw [hb]; rfl

theorem Stream.Fetched.trans {l : Nat} (h : Stream.Fetched src n m) (h' : Stream.Fetched src m l) :
    Stream.Fetched src n l := by
  intro k hk hk'
  rcases Nat.lt_or_ge k m with hlt | hge
  · exact h k hk hlt
  · exact h' k hge hk'

/-! ## Its parts -/

/-- The two forms of a descriptor, or the byte that is missing (30_encoding.md R67). -/
theorem decodeOperand_describes (src : Stream) (n : Nat) :
    (decodeOperand src n).Describes (fun d m => d.wellFormed = true ∧ m = n + d.length) src n := by
  have h0 : Stream.Fetched src n n := Stream.fetched_self
  unfold decodeOperand
  split
  · next hb => exact ⟨hb, Nat.le_refl n, h0⟩
  next b1 hb =>
  have h1 := h0.succ hb
  split
  · split
    · next hc => exact ⟨hc, Nat.le_add_right n 1, h1⟩
    next c0 hc =>
    have h2 := h1.succ hc
    split
    · next hc => exact ⟨hc, Nat.le_add_right n 2, h2⟩
    next c1 hc =>
    exact ⟨⟨decide_eq_true (pathOfByte_length_le b1), rfl⟩, h2.succ hc⟩
  · split
    · next ha => exact ⟨ha, Nat.le_add_right n 1, h1⟩
    next a3 ha =>
    have h2 := h1.succ ha
    split
    · next ha => exact ⟨ha, Nat.le_add_right n 2, h2⟩
    next a2 ha =>
    have h3 := h2.succ ha
    split
    · next ha => exact ⟨ha, Nat.le_add_right n 3, h3⟩
    next a1 ha =>
    have h4 := h3.succ ha
    split
    · next ha => exact ⟨ha, Nat.le_add_right n 4, h4⟩
    next a0 ha =>
    exact ⟨⟨rfl, rfl⟩, h4.succ ha⟩

/-- A string is cut only where a byte of the stream is missing, the fuel covering the bytes from `n` on. -/
theorem decodeString_describes {fuel : Nat} (hfuel : ∀ k, n + fuel ≤ k → src k = none) :
    (decodeString src fuel n).Describes (fun str m => wellFormedString str = true ∧ m = n + str.length + 1) src n := by
  induction fuel generalizing n with
  | zero => exact ⟨hfuel n (Nat.le_refl n), Nat.le_refl n, Stream.fetched_self⟩
  | succ fuel ih =>
    unfold decodeString
    split
    · next hb => exact ⟨hb, Nat.le_refl n, Stream.fetched_self⟩
    next b hb =>
    have h1 : Stream.Fetched src n (n + 1) := Stream.fetched_self.succ hb
    split
    · exact ⟨⟨rfl, rfl⟩, h1⟩
    next hne =>
    have hrest := ih (n := n + 1) (fun k hk => hfuel k (by omega))
    split
    · next m hm =>
      rw [hm] at hrest
      obtain ⟨hnone, hle, hfetched⟩ := hrest
      exact ⟨hnone, by omega, h1.trans hfetched⟩
    · next str m hm =>
      rw [hm] at hrest
      obtain ⟨⟨hstr, hlen⟩, hfetched⟩ := hrest
      refine ⟨⟨?_, by simp only [List.length_cons]; omega⟩, h1.trans hfetched⟩
      rw [wellFormedString, List.all_cons, Bool.and_eq_true]
      exact ⟨bne_iff_ne.mpr hne, hstr⟩

/-- One descriptor and the rest of the decoding, which is asked only after a well-formed descriptor. -/
theorem withOperand_describes {k : Operand → Nat → DecodeResult} (h0 : Stream.Fetched src 0 n)
    (hk : ∀ d, d.wellFormed = true → Stream.Fetched src 0 (n + d.length) → (k d (n + d.length)).Describes src) :
    (withOperand src n k).Describes src := by
  have hd := decodeOperand_describes src n
  unfold withOperand
  split
  · next m hm =>
    rw [hm] at hd
    obtain ⟨hnone, -, hfetched⟩ := hd
    exact ⟨hnone, h0.trans hfetched⟩
  · next d m hm =>
    rw [hm] at hd
    obtain ⟨⟨hwf, rfl⟩, hfetched⟩ := hd
    exact hk d hwf (h0.trans hfetched)

end

/-! ## The decoder -/

/-- An opcode of the map is that of one of the seven instructions (30_encoding.md R73). -/
theorem isOpcode_cases {op : Byte} (h : isOpcode op = true) :
    op = opHalt ∨ op = opOutu ∨ op = opOutc ∨ op = opCout ∨ op = opMout ∨ op = opSta ∨ op = opUadd := by
  simpa only [isOpcode, Bool.or_eq_true, beq_iff_eq, or_assoc] using h

theorem decodeStream_describes {src : Stream} {fuel : Nat} (hfuel : ∀ k, fuel < k → src k = none) :
    (decodeStream src fuel).Describes src := by
  have h0 : Stream.Fetched src 0 0 := Stream.fetched_self
  cases hop : src 0 with
  | none =>
    have hcut : decodeStream src fuel = .truncated 0 := by simp only [decodeStream, hop]
    rw [hcut]
    exact ⟨hop, h0⟩
  | some op =>
  have h1 := h0.succ hop
  cases hmap : isOpcode op with
  | false => rw [decodeStream_illegal hop hmap]; exact hop
  | true =>
  rcases isOpcode_cases hmap with rfl | rfl | rfl | rfl | rfl | rfl | rfl
  · rw [decodeStream_halt fuel hop]
    exact ⟨rfl, rfl, hop, h1⟩
  · rw [decodeStream_outu fuel hop]
    cases hb : src 1 with
    | none => exact ⟨hb, h1⟩
    | some b => exact ⟨rfl, rfl, hop, h1.succ hb⟩
  · rw [decodeStream_outc fuel hop]
    cases hb : src 1 with
    | none => exact ⟨hb, h1⟩
    | some b => exact ⟨rfl, rfl, hop, h1.succ hb⟩
  · have hstr := decodeString_describes (src := src) (n := 1) (fuel := fuel) (fun k hk => hfuel k (by omega))
    cases hdec : decodeString src fuel 1 with
    | short m =>
      rw [hdec] at hstr
      obtain ⟨hnone, -, hfetched⟩ := hstr
      rw [decodeStream_cout_short fuel hop hdec]
      exact ⟨hnone, h1.trans hfetched⟩
    | done str m =>
      rw [hdec] at hstr
      obtain ⟨⟨hwf, hlen⟩, hfetched⟩ := hstr
      rw [decodeStream_cout_done fuel hop hdec]
      exact ⟨hwf, by simp only [Instr.length]; omega, hop, h1.trans hfetched⟩
  · rw [decodeStream_mout fuel hop]
    exact withOperand_describes h1 fun d hd hfetched => ⟨hd, rfl, hop, hfetched⟩
  · rw [decodeStream_sta fuel hop]
    exact withOperand_describes h1 fun d hd hfetched => ⟨hd, rfl, hop, hfetched⟩
  · rw [decodeStream_uadd fuel hop]
    refine withOperand_describes h1 fun d1 hd1 hf1 => withOperand_describes hf1 fun d2 hd2 hf2 =>
      withOperand_describes hf2 fun d3 hd3 hf3 => ⟨?_, rfl, hop, hf3⟩
    simp only [Instr.wellFormed, hd1, hd2, hd3, Bool.and_self]

/-! ## The statements -/

theorem Stream.Fetched.le_length {bs : List Byte} {n : Nat} (h : Stream.Fetched (listStream bs) 0 n) :
    n ≤ bs.length := by
  by_contra hlt
  have hsome := h bs.length (Nat.zero_le _) (Nat.lt_of_not_le hlt)
  rw [listStream, List.getElem?_eq_none (Nat.le_refl _)] at hsome
  cases hsome

theorem decode_describes (bs : List Byte) : (decode bs).Describes (listStream bs) :=
  decodeStream_describes fun _ hk => List.getElem?_eq_none hk.le

/-- Settles O3: it is the decoder's contract on the stream of the list. -/
theorem decodedInstructionIsWellFormed : Obligations.DecodedInstructionIsWellFormed := by
  intro bs i n h
  have hdec := decode_describes bs
  rw [h] at hdec
  obtain ⟨hwf, hlen, -, hfetched⟩ := hdec
  exact ⟨hwf, hlen, hfetched.le_length⟩

/-- Settles O5: the words are fixed, so the decoder computes each. -/
theorem writtenWordsDecode : Obligations.WrittenWordsDecode := by
  refine ⟨?_, ?_, ?_, ?_, ?_, ?_, ?_, ?_, ?_⟩ <;> decide

end Sys2Proof
end

