-- ==== Sys2Proof/Proofs/Identifiers.lean ====
section
/-! Sector paths as strings and register identifiers, and the statements about them (10_state.md R15, R16, R19;
30_encoding.md R61, R62). -/

namespace Sys2Proof.Machine

/-! ## Sector paths -/

/-- A string spells a path of its own length exactly when each of its characters is `l` or `h` (10_state.md R19). -/
theorem parsePath_cases (cs : List Char) :
    (∃ p, parsePath cs = .ok p ∧ p.length = cs.length ∧ ∀ c ∈ cs, c = 'l' ∨ c = 'h') ∨
      parsePath cs = .error .invalidOperand := by
  induction cs with
  | nil => exact .inl ⟨[], rfl, rfl, by simp⟩
  | cons c cs ih =>
    rcases ih with ⟨p, hp, hlen, hall⟩ | herr
    · by_cases hl : c = 'l'
      · exact .inl ⟨.l :: p, by simp [parsePath, hp, hl], by simp [hlen], by simpa [hl] using hall⟩
      by_cases hh : c = 'h'
      · exact .inl ⟨.h :: p, by simp [parsePath, hp, hh], by simp [hlen], by simpa [hh] using hall⟩
      · exact .inr (by simp [parsePath, hp, hl, hh])
    · exact .inr (by simp [parsePath, herr])

/-- Settles O6: the two bisection rules are the algorithm's, and the table is its value at each path. -/
theorem sectorRangeTable : Obligations.SectorRangeTable := by
  refine ⟨fun p hp => sectorRange_of_le hp, fun p lo hi => rfl, fun p lo hi => rfl, ?table⟩
  case table => decide

/-- Settles O7: a string that parses is as long as its path, and the decoder takes a path's length from two bits. -/
theorem malformedPathIsInvalidOperand : Obligations.MalformedPathIsInvalidOperand := by
  refine ⟨?strings, ?descriptors⟩
  case strings =>
    intro cs hbad
    rcases parsePath_cases cs with ⟨p, hp, hlen, hall⟩ | herr
    · rcases hbad with hlong | ⟨c, hc, hl, hh⟩
      · have hnot : ¬p.length ≤ 3 := by omega
        simp only [sectorRangeOfString, hp, sectorRange, if_neg hnot]
      · exact absurd (hall c hc) (not_or.mpr ⟨hl, hh⟩)
    · simp only [sectorRangeOfString, herr]
  case descriptors =>
    intro src n m c0 c1 p h
    have hdec := decodeOperand_describes src n
    rw [h] at hdec
    obtain ⟨⟨hwf, -⟩, -⟩ := hdec
    exact of_decide_eq_true hwf

/-! ## Register identifiers -/

/-- The lowercase hexadecimal digits in the order of their values. -/
def hexDigits : List Byte :=
  [0x30, 0x31, 0x32, 0x33, 0x34, 0x35, 0x36, 0x37, 0x38, 0x39, 0x61, 0x62, 0x63, 0x64, 0x65, 0x66]

theorem hexval_of_hexDigits {h : Nat} {c : Byte} (hc : hexDigits[h]? = some c) : hexval c = some h := by
  have hh : h < 16 := (List.getElem?_eq_some_iff.mp hc).1
  interval_cases h <;> cases hc <;> rfl

theorem toNat_of_hexval {h : Nat} {c : Byte} (hc : hexval c = some h) :
    h < 10 ∧ c.toNat = 0x30 + h ∨ 10 ≤ h ∧ h < 16 ∧ c.toNat = 0x57 + h := by
  unfold hexval at hc
  split at hc
  · cases hc; omega
  split at hc
  · cases hc; omega
  · cases hc

/-- Each byte with a value is the digit at that place of the list. -/
theorem hexDigits_of_hexval {h : Nat} {c : Byte} (hc : hexval c = some h) : hexDigits[h]? = some c := by
  rcases toNat_of_hexval hc with ⟨hhi, hn⟩ | ⟨hlo, hhi, hn⟩ <;> interval_cases h <;>
    exact congrArg some (BitVec.eq_of_toNat_eq hn.symm)

theorem hexval_eq_some_iff {h : Nat} {c : Byte} : hexval c = some h ↔ hexDigits[h]? = some c :=
  ⟨hexDigits_of_hexval, hexval_of_hexDigits⟩

theorem hexval_lt {h : Nat} {c : Byte} (hc : hexval c = some h) : h < 16 :=
  (List.getElem?_eq_some_iff.mp (hexDigits_of_hexval hc)).1

/-- A pair of bytes names a general register by its two hexadecimal digits; neither "pc" nor "fl" is such a pair. -/
theorem regDecode_gpr_iff {n i : Nat} {c0 c1 : Byte} :
    regDecode n c0 c1 = some (.gpr i) ↔ i < n ∧ hexval c0 = some (i / 16) ∧ hexval c1 = some (i % 16) := by
  unfold regDecode
  split
  · next hpc => simp [hpc.1, hexval]
  split
  · next hfl => simp [hfl.2, hexval]
  split
  · next h0 h1 e0 e1 =>
    have hh1 := hexval_lt e1
    rw [e0, e1]
    simp only [Option.some.injEq]
    split
    · simp only [Option.some.injEq, RegName.gpr.injEq]
      omega
    · simp only [reduceCtorEq, false_iff]
      omega
  · next hnone =>
    simp only [reduceCtorEq, false_iff]
    exact fun h => hnone _ _ h.2.1 h.2.2

theorem regDecode_of_digits {n : Nat} {c0 c1 : Byte} (hpc : ¬(c0 = 0x70 ∧ c1 = 0x63))
    (hfl : ¬(c0 = 0x66 ∧ c1 = 0x6C)) : regDecode n c0 c1 = none ∨ ∃ i, regDecode n c0 c1 = some (.gpr i) := by
  rw [regDecode, if_neg hpc, if_neg hfl]
  split
  · split
    · exact .inr ⟨_, rfl⟩
    · exact .inl rfl
  · exact .inl rfl

theorem regDecode_pc_iff {n : Nat} {c0 c1 : Byte} : regDecode n c0 c1 = some .pc ↔ c0 = 0x70 ∧ c1 = 0x63 := by
  by_cases hpc : c0 = 0x70 ∧ c1 = 0x63
  · simp [regDecode, hpc]
  by_cases hfl : c0 = 0x66 ∧ c1 = 0x6C
  · simp [regDecode, hfl]
  rcases regDecode_of_digits (n := n) hpc hfl with e | ⟨i, e⟩ <;> simp only [e, hpc, reduceCtorEq, Option.some.injEq]

theorem regDecode_fl_iff {n : Nat} {c0 c1 : Byte} : regDecode n c0 c1 = some .fl ↔ c0 = 0x66 ∧ c1 = 0x6C := by
  by_cases hpc : c0 = 0x70 ∧ c1 = 0x63
  · simp [regDecode, hpc]
  by_cases hfl : c0 = 0x66 ∧ c1 = 0x6C
  · simp [regDecode, hfl]
  rcases regDecode_of_digits (n := n) hpc hfl with e | ⟨i, e⟩ <;> simp only [e, hfl, reduceCtorEq, Option.some.injEq]

/-- Settles O8: the digits at the two places are those whose values are the quotient and the remainder by 16. -/
theorem identifiersNameRegisters : Obligations.IdentifiersNameRegisters := by
  intro n c0 c1
  refine ⟨regDecode_pc_iff, regDecode_fl_iff, fun i => ?_⟩
  rw [regDecode_gpr_iff, hexval_eq_some_iff, hexval_eq_some_iff]
  rfl

end Sys2Proof.Machine
end

