-- ==== Sys2Proof/Proofs/BusTransactions.lean ====
section
/-! Bus transactions: what a write to each kind of bus answers, and the statements about them (20_memory.md R41, R42,
R44, R45). -/

namespace Sys2Proof.Machine

theorem drawBytes_getElem? {random w j : Nat} (hj : j < w) :
    (drawBytes random w)[j]? = some (Config.randomByte (random + j)) := by
  simp [drawBytes, hj]

/-- Settles O13: a write to a source bus takes its content from the random source and its width from the bus. -/
theorem busContentionNeverFails : Obligations.BusContentionNeverFails := by
  intro b random hdir
  exact ⟨Bus.source (drawBytes random b.width), fun v => by simp only [Bus.write, hdir, Bus.source],
    drawBytes_length random b.width, rfl, fun j hj => drawBytes_getElem? hj⟩

/-- Settles O14: a write to a destination bus compares the two lengths. -/
theorem busWriteChecksWidth : Obligations.BusWriteChecksWidth := by
  intro b v random hdir
  simp only [Bus.write, hdir]
  exact ⟨fun hv => ⟨_, if_pos hv, rfl, hv⟩, fun hv => if_neg hv⟩

theorem Memory.read_ok_length {m : Memory} {a w : Nat} {v : List Byte} (h : m.read a w = .ok v) : v.length = w := by
  rcases m.read_cases a w with ⟨-, e⟩ | ⟨-, e⟩ <;> cases e.symm.trans h
  exact m.getBytes_length a w

theorem Memory.present_of_destination {data : Bus} (h : data.direction = .destinationOfData) (m : Memory)
    (addr : Bus) :
    m.present addr data = (m.read (be addr.read) data.width).map (fun v => (m, some (.destination v))) := by
  simp only [Memory.present, h]
  cases m.read (be addr.read) data.width <;> rfl

theorem Memory.present_of_source {data : Bus} (h : data.direction = .sourceOfData) (m : Memory) (addr : Bus) :
    m.present addr data = (m.write (be addr.read) data.width data.read).map (fun m' => (m', none)) := by
  simp only [Memory.present, h]
  cases m.write (be addr.read) data.width data.read <;> rfl

/-- Settles O15: by the direction of the data bus the transaction is one read or one write. -/
theorem presentMediatesAccess : Obligations.PresentMediatesAccess := by
  intro m addr data
  constructor <;> intro hdir
  · rw [Memory.present_of_destination hdir, Bus.read]
    exact ⟨fun v h => ⟨.destination v, by rw [h]; rfl, rfl, Memory.read_ok_length h, rfl⟩, fun k h => by rw [h]; rfl⟩
  · rw [Memory.present_of_source hdir, Bus.read, Bus.read]
    exact ⟨fun m' h => by rw [h]; rfl, fun k h => by rw [h]; rfl⟩

end Sys2Proof.Machine
end

