-- ==== Sys2Proof/Proofs/Cycle.lean ====
section
/-! The cycle: the step by what the stop signal and the decoder give, the decoder on the bytes of memory at the PC, and
the statements about fetching and stepping (40_cycle.md R79 to R85; 60_exceptions.md R108, R113). -/

namespace Sys2Proof

theorem decodeStream_none {src : Stream} (h : src 0 = none) (fuel : Nat) : decodeStream src fuel = .truncated 0 := by
  simp only [decodeStream, h]

/-- A string with no terminator up to the end of the stream at `m` is cut there (log entry 12). -/
theorem decodeString_unterminated {src : Stream} {fuel n m : Nat} (hm : src m = none)
    (hbytes : ∀ k, n ≤ k → k < m → ∃ b, src k = some b ∧ b ≠ 0x00) (hn : n ≤ m) (hfuel : m ≤ n + fuel) :
    decodeString src fuel n = .short m := by
  induction fuel generalizing n with
  | zero =>
    obtain rfl : n = m := by omega
    rfl
  | succ fuel ih =>
    rcases Nat.eq_or_lt_of_le hn with rfl | hlt
    · simp only [decodeString, hm]
    · obtain ⟨b, hb, hne⟩ := hbytes n (Nat.le_refl n) hlt
      have hrest := ih (n := n + 1) (fun k hk => hbytes k (by omega)) hlt (by omega)
      simp only [decodeString, hb, if_neg hne, hrest]

namespace Machine

/-! ## Fetching -/

/-- Settles O16: a fetch reads the byte at the PC and advances by one, both in bounds. -/
theorem fetchReadsByteAndIncrements : Obligations.FetchReadsByteAndIncrements := by
  intro s
  rw [State.fetch_eq]
  constructor
  · exact fun hmem hpc => ⟨s.advance 1, if_pos ⟨hmem, hpc⟩, s.advance_regBytes 1, rfl⟩
  · exact fun hout => if_neg (by omega)

/-- In a memory with a capacity below 2^64 the instruction stream is the list of bytes from the PC on. -/
theorem State.codeStream_eq_listStream {s : State} (hsize : s.mem.size < 2 ^ 64) :
    s.codeStream = listStream s.codeBytes := by
  funext k
  rw [State.codeStream_eq, listStream, State.codeBytes]
  by_cases hk : k < s.mem.size - s.pc.toNat
  · rw [if_pos (by omega), Memory.getBytes_getElem? _ _ hk]
  · rw [if_neg (by omega), List.getElem?_eq_none (by rw [Memory.getBytes_length]; omega)]

/-- The core's decoder is the byte-list decoder on the bytes from the PC on (log entry 12). -/
theorem State.fetchInstr_eq_decode {s : State} (hsize : s.mem.size < 2 ^ 64) : s.fetchInstr = decode s.codeBytes := by
  rw [State.fetchInstr, State.codeStream_eq_listStream hsize, decode]
  congr 1
  exact (s.mem.getBytes_length ..).symm

theorem State.fetchInstr_describes (s : State) : s.fetchInstr.Describes s.codeStream := by
  refine decodeStream_describes fun k hk => ?_
  rw [State.codeStream_eq, if_neg (by omega)]

/-! ## The step -/

theorem step_of_ok {s : State} {i : Instr} {n : Nat} (hs : s.ready) (h : s.sampleStop.fetchInstr = .ok i n) :
    step s = exec i s.sampleStop := by
  obtain ⟨hrun, hstop⟩ := hs
  simp [step, hrun, hstop, h]

theorem step_of_stop {s : State} (hrun : s.run = .running) (hstop : s.stopAsserted = true) :
    step s = .next s.cancel := by
  simp [step, hrun, hstop]

@[simp] theorem State.emitChars_nil (s : State) : s.emitChars [] = s := by
  simp [State.emitChars]

/-- A cut instruction other than COUT leaves the increments and the record of the failure. -/
theorem State.failTruncated_eq {s : State} (h : s.codeStream 0 ≠ some opCout) (n : Nat) :
    s.failTruncated n = (s.advance n).fail .outOfBounds s.pc (s.codeStream 0) := by
  rw [State.failTruncated, State.partialChars, if_neg h, State.emitChars_nil]

/-- Settles O17: it is the step's case of a whole instruction. -/
theorem stepRunsFetchedInstruction : Obligations.StepRunsFetchedInstruction :=
  fun _ _ _ hs h => step_of_ok hs h

/-- Settles O18: the stream at the PC begins with the encoding, so the decoder gives the instruction. -/
theorem stepRunsEncodedInstruction : Obligations.StepRunsEncodedInstruction := by
  intro s i hs hsize hi hin hbytes
  have hholds : Stream.Holds s.codeStream 0 (encode i) := by
    refine Stream.holds_iff.mpr fun k b hb => ?_
    have hk : k < i.length := encode_length i ▸ (List.getElem?_eq_some_iff.mp hb).1
    rw [Nat.zero_add, State.codeStream_eq, if_pos (by omega), hbytes k b hb]
  refine step_of_ok hs (n := i.length) ?_
  rw [State.fetchInstr, State.sampleStop_codeStream]
  exact decodeStream_of_holds hi hholds (by simp only [State.sampleStop_mem, State.sampleStop_pc]; omega)

/-- Settles O19: the core's decoder is the byte-list decoder, and each of its answers is one case of the step. -/
theorem stepDecodesMemoryAtPc : Obligations.StepDecodesMemoryAtPc := by
  intro s hs hsize
  have hdec : s.sampleStop.fetchInstr = decode s.codeBytes := State.fetchInstr_eq_decode hsize
  have hfirst : s.sampleStop.codeStream 0 = s.codeBytes[0]? := by
    rw [State.sampleStop_codeStream, State.codeStream_eq_listStream hsize, listStream]
  refine ⟨fun i n h => step_of_ok hs (hdec.trans h), fun op h => ?_, fun n h hcout => ?_⟩
  · rw [step_of_illegal hs (hdec.trans h), State.failIllegal, ← State.atNext_eq_advance]
    rfl
  · rw [step_of_truncated hs (hdec.trans h), State.failTruncated_eq (hfirst ▸ hcout), hfirst,
      ← State.atNext_eq_advance]
    rfl

/-- Settles O21: the stream is empty, so the cut is at its first byte. -/
theorem opcodeFetchPastEndFails : Obligations.OpcodeFetchPastEndFails := by
  intro s hs hpc
  have h0 : s.sampleStop.codeStream 0 = none := State.codeStream_none_of_size_le hpc
  rw [step_of_truncated hs (decodeStream_none h0 _), State.failTruncated_eq (by simp [h0]), h0, State.advance_zero]
  rfl

/-! ## A string cut by the end of memory -/

/-- The bytes a COUT has fetched after its opcode, up to the end of memory. -/
theorem State.partialChars_of_cout {s : State} (hsize : s.mem.size < 2 ^ 64) (hcout : s.codeStream 0 = some opCout) :
    s.partialChars (s.mem.size - s.pc.toNat) =
      s.mem.getBytes (s.pc.toNat + 1) (s.mem.size - (s.pc.toNat + 1)) := by
  have hlen : s.mem.size - s.pc.toNat - 1 = s.mem.size - (s.pc.toNat + 1) := by omega
  rw [State.partialChars, if_pos hcout, hlen, Memory.getBytes, ← List.filterMap_eq_map]
  refine List.filterMap_congr fun k hk => ?_
  have hk := List.mem_range.mp hk
  rw [State.codeStream_eq, if_pos (by omega), Function.comp_apply]
  congr 2
  omega

/-- Settles O22: with no terminator the string is cut at the end of memory, where every byte has been fetched. -/
theorem unterminatedCoutKeepsEvents : Obligations.UnterminatedCoutKeepsEvents := by
  intro s hs hsize hpc hop hbytes
  have hcout : s.sampleStop.codeStream 0 = some opCout := by
    rw [State.sampleStop_codeStream, State.codeStream_zero hsize hpc, hop]
    rfl
  have hstr : decodeString s.sampleStop.codeStream (s.mem.size - s.pc.toNat) 1 = .short (s.mem.size - s.pc.toNat) := by
    rw [State.sampleStop_codeStream]
    refine decodeString_unterminated (State.codeStream_none_of_size_le (by omega)) (fun k hk hk' => ?_) (by omega)
      (by omega)
    rw [State.codeStream_eq, if_pos (by omega)]
    exact ⟨_, rfl, hbytes _ (by omega) (by omega)⟩
  have hpcEnd : s.pc.toNat + (s.mem.size - s.pc.toNat) = s.mem.size := by omega
  have hchars : s.sampleStop.partialChars (s.mem.size - s.pc.toNat) =
      s.mem.getBytes (s.pc.toNat + 1) (s.mem.size - (s.pc.toNat + 1)) := State.partialChars_of_cout hsize hcout
  rw [step_of_truncated hs (decodeStream_cout_short _ hcout hstr), State.failTruncated, hcout, hchars,
    ← State.atNext_eq_advance, State.atNext, State.sampleStop_pc, hpcEnd]
  rfl

/-! ## The run state and the stop signal -/

/-- Settles O23: the stop signal is read before anything is fetched. -/
theorem stopCancelsRun : Obligations.StopCancelsRun :=
  fun _ hrun hstop => step_of_stop hrun hstop

/-- Settles O24: only a Running core steps. -/
theorem terminalStatesTakeNoStep : Obligations.TerminalStatesTakeNoStep := by
  intro s hs
  unfold step
  split
  · next hrun => exact absurd hrun hs
  · rfl

end Machine
end Sys2Proof
end

