-- ==== Sys2Proof/Proofs/OutputAndSta.lean ====
section
/-! COUT, MOUT and STA: their meanings over `State.atNext`, and the statements about them (41_control_io.md R99 to
R101). -/

namespace Sys2Proof.Machine

/-! ## The meanings -/

@[simp] theorem State.atNext_resolves (s : State) (n : Nat) (d : Operand) :
    (s.atNext n).resolves d = s.resolves d := by
  rw [State.atNext_eq_advance, State.advance_resolves]

theorem State.atNext_pcBytes (s : State) (n : Nat) : regBytes (s.atNext n).pc = tobe 8 (s.pc.toNat + n) := by
  rw [State.atNext_eq_advance, State.advance_regBytes]

theorem exec_cout (str : List Byte) (s : State) :
    exec (.cout str) s = .next { s.atNext (str.length + 2) with out := s.out ++ str.map .c } := by
  rw [State.atNext_eq_advance]; rfl

theorem exec_sta (d : Operand) (s : State) :
    exec (.sta d) s = .next ((s.atNext (1 + d.length)).fail .unimplementedOpcode s.pc (some opSta)) := by
  rw [State.atNext_eq_advance]; rfl

theorem exec_mout_of_resolves {d : Operand} {s : State} (h : s.resolves d = true) :
    exec (.mout d) s =
      .next { s.atNext (1 + d.length) with out := s.out ++ [.m ((s.atNext (1 + d.length)).operandBytes d)] } := by
  simp only [exec, execMout, State.resolveRead_eq, State.advance_resolves, h, if_true, State.atNext_eq_advance]
  rfl

theorem exec_mout_of_not_resolves {d : Operand} {s : State} (h : s.resolves d = false) :
    exec (.mout d) s = .next ((s.atNext (1 + d.length)).fail (resolveFailure d) s.pc (some opMout)) := by
  simp only [exec, execMout, State.resolveRead_eq, State.advance_resolves, h, Bool.false_eq_true, if_false,
    State.atNext_eq_advance]
  rfl

/-! ## The statements -/

/-- Settles O29: it is the meaning of COUT. -/
theorem coutEmitsString : Obligations.CoutEmitsString :=
  fun str s _ _ => exec_cout str s

/-- Settles O30: it is the meaning of MOUT where the operand resolves. -/
theorem moutEmitsOperandBytes : Obligations.MoutEmitsOperandBytes :=
  fun _ _ h _ => exec_mout_of_resolves h

/-- The whole register is the sector of the empty path. -/
theorem slice_regBytes_whole (r : Reg) : slice (regBytes r) 0 7 = regBytes r := by
  rw [slice, List.drop_zero, List.take_of_length_le (by simp)]

/-- The PC as a whole operand, "pc" with the empty path, in any register file. -/
theorem State.operandBytes_pc (s : State) : s.operandBytes (.reg 0x70 0x63 []) = regBytes s.pc := by
  rw [← slice_regBytes_whole s.pc]
  simp only [State.operandBytes, regDecode_pc_iff.mpr ⟨rfl, rfl⟩]
  rfl

theorem State.resolves_pc (s : State) : s.resolves (.reg 0x70 0x63 []) = true := by
  simp only [State.resolves, regDecode_pc_iff.mpr ⟨rfl, rfl⟩]
  rfl

/-- Settles O31: the PC resolves, and its bytes past the instruction are those of the next address. -/
theorem moutOfPcEmitsNextAddress : Obligations.MoutOfPcEmitsNextAddress := by
  intro s _
  rw [exec_mout_of_resolves s.resolves_pc, State.operandBytes_pc, State.atNext_pcBytes]
  rfl

/-- Settles O32: an unknown identifier and a range past the end do not resolve, each with its own failure. -/
theorem moutOfBadOperandFails : Obligations.MoutOfBadOperandFails := by
  constructor
  · intro c0 c1 p s hnone _
    exact exec_mout_of_not_resolves (by simp [State.resolves, hnone])
  · intro w a s hout _
    exact exec_mout_of_not_resolves (by simpa [State.resolves] using hout)

/-- Settles O33: it is the meaning of STA, which resolves nothing. -/
theorem staFailsUnimplemented : Obligations.StaFailsUnimplemented :=
  fun d s _ => exec_sta d s

end Sys2Proof.Machine
end

