-- ==== Sys2Proof/Proofs/Uadd.lean ====
section
/-! UADD: when it fails and with which kind, what it leaves where it completes, which bytes a written operand touches,
and the statements about it (42_alu.md R104, R105; 60_exceptions.md R112, R115). -/

namespace Sys2Proof.Machine

/-! ## The meaning -/

/-- The failure of a UADD, by the first condition in execution order; none where it completes
(60_exceptions.md R115). -/
def State.uaddFailure (s : State) (d1 d2 d3 : Operand) : Option FailKind :=
  if s.resolves d1 = false then some (resolveFailure d1)
  else if s.resolves d2 = false then some (resolveFailure d2)
  else if s.resolves d3 = false then some (resolveFailure d3)
  else if operandWidth d2 ≠ operandWidth d1 then some .invalidOperand
  else if operandWidth d3 ≠ operandWidth d1 then some .busWidthMismatch
  else none

/-- The exact sum of the two inputs (42_alu.md R104). -/
def State.inputSum (s : State) (d1 d2 : Operand) : Nat :=
  be (s.operandBytes d1) + be (s.operandBytes d2)

/-- What a completing UADD leaves of the state past the instruction: the carry in `OF`, then the low bytes of the sum in
the output (42_alu.md R104; the spec's decision D10). -/
def State.uaddResult (s : State) (d1 d2 d3 : Operand) : State :=
  (s.withOf (BitVec.ofNat 8 (s.inputSum d1 d2 / 256 ^ operandWidth d1))).writeOperand d3
    (tobe (operandWidth d1) (s.inputSum d1 d2 % 256 ^ operandWidth d1))

section
variable {s : State} {d1 d2 d3 : Operand}

theorem State.aluInstr_uadd (s : State) (d1 d2 d3 : Operand) :
    s.aluInstr opUadd d1 d2 d3 = (s.uaddFailure d1 d2 d3).elim (.ok (s.uaddResult d1 d2 d3)) .error := by
  rw [State.aluInstr_eq]
  unfold State.uaddFailure
  split_ifs <;> rfl

@[simp] theorem State.atNext_uaddFailure (s : State) (n : Nat) (d1 d2 d3 : Operand) :
    (s.atNext n).uaddFailure d1 d2 d3 = s.uaddFailure d1 d2 d3 := by
  simp only [State.uaddFailure, State.atNext_resolves]

theorem exec_uadd_of_fails {k : FailKind} (h : s.uaddFailure d1 d2 d3 = some k) :
    exec (.uadd d1 d2 d3) s =
      .next ((s.atNext (1 + d1.length + d2.length + d3.length)).fail k s.pc (some opUadd)) := by
  simp only [exec, execUadd, ← State.atNext_eq_advance, State.aluInstr_uadd, State.atNext_uaddFailure, h]
  rfl

theorem exec_uadd_of_completes (h : s.uaddFailure d1 d2 d3 = none) :
    exec (.uadd d1 d2 d3) s =
      .next ((s.atNext (1 + d1.length + d2.length + d3.length)).uaddResult d1 d2 d3) := by
  simp only [exec, execUadd, ← State.atNext_eq_advance, State.aluInstr_uadd, State.atNext_uaddFailure, h]
  rfl

/-- A UADD completes where its operands resolve and have one width (42_alu.md R104). -/
theorem State.uaddFailure_eq_none_iff :
    s.uaddFailure d1 d2 d3 = none ↔
      s.resolves d1 = true ∧ s.resolves d2 = true ∧ s.resolves d3 = true ∧
        operandWidth d2 = operandWidth d1 ∧ operandWidth d3 = operandWidth d1 := by
  unfold State.uaddFailure
  split_ifs <;> simp_all

end

/-! ## What a written operand touches -/

/-- The output's bytes fill its width. -/
theorem operandWidth_of_output {d1 d3 : Operand} (h : operandWidth d3 = operandWidth d1) (x : Nat) :
    (tobe (operandWidth d1) x).length = operandWidth d3 := by
  rw [tobe_length, h]

theorem State.resolves_reg {s : State} {c0 c1 : Byte} {p : List Half} (h : s.resolves (.reg c0 c1 p) = true) :
    (∃ r, regDecode s.gpr.length c0 c1 = some r) ∧ p.length ≤ 3 := by
  simpa only [State.resolves, Bool.and_eq_true, decide_eq_true_eq, Option.isSome_iff_exists] using h

theorem State.writeOperand_reg {s : State} {c0 c1 : Byte} {r : RegName} (h : regDecode s.gpr.length c0 c1 = some r)
    (p : List Half) (v : List Byte) : s.writeOperand (.reg c0 c1 p) v = s.withSector r p v := by
  simp only [State.writeOperand, h, State.withSector]

/-- A register byte that the output does not write is as before. -/
theorem State.writeOperand_regByte {s : State} {d : Operand} {v : List Byte} {r : RegName} {j : Nat}
    (h : s.resolves d = true) (hv : v.length = operandWidth d) (hw : s.writesRegByte d r j = false) :
    (regBytes ((s.writeOperand d v).getReg r))[j]? = (regBytes (s.getReg r))[j]? := by
  cases d with
  | mem w a => cases r <;> rfl
  | reg c0 c1 p =>
    obtain ⟨⟨q, hq⟩, hp⟩ := State.resolves_reg h
    rw [State.writeOperand_reg hq]
    by_cases hr : r = q
    · subst hr
      have ⟨hle, hlt⟩ := sectorBounds_le hp
      have hj : j < (sectorBounds p).1 ∨ (sectorBounds p).2 < j := by
        simp [State.writesRegByte, hq] at hw
        omega
      rw [State.withSector_regBytes hq hp hv, splice_getElem?_outside hle (by simpa using hlt) hv hj]
    · rw [State.withSector, State.getReg_setReg_ne s _ hr]

/-! ## The flag -/

theorem State.flBytes_zero (s : State) : (regBytes s.fl)[0]? = some s.of := rfl

theorem State.withOf_of (s : State) (b : Byte) : (s.withOf b).of = b := by
  rw [State.of, State.withOf_flBytes, List.headD_cons]

/-- Every register byte but `OF` is as before. -/
theorem State.withOf_regByte (s : State) (b : Byte) {r : RegName} {j : Nat} (h : ¬(r = .fl ∧ j = 0)) :
    (regBytes ((s.withOf b).getReg r))[j]? = (regBytes (s.getReg r))[j]? := by
  cases r with
  | pc => rfl
  | gpr i => rfl
  | fl =>
    obtain ⟨j, rfl⟩ := Nat.exists_eq_succ_of_ne_zero (fun e => h ⟨rfl, e⟩)
    rw [State.getReg_fl, State.withOf_flBytes, List.getElem?_cons_succ, List.getElem?_drop, Nat.add_comm]
    rfl

section
variable (s : State) (n : Nat) (b : Byte)

@[simp] theorem State.withOf_resolves (d : Operand) : (s.withOf b).resolves d = s.resolves d := by cases d <;> rfl

@[simp] theorem State.withOf_writesRegByte (d : Operand) (r : RegName) (j : Nat) :
    (s.withOf b).writesRegByte d r j = s.writesRegByte d r j := by cases d <;> rfl

@[simp] theorem State.atNext_writesRegByte (d : Operand) (r : RegName) (j : Nat) :
    (s.atNext n).writesRegByte d r j = s.writesRegByte d r j := by cases d <;> rfl

/-- Moving the PC changes no other register. -/
theorem State.atNext_getReg {r : RegName} (h : r ≠ .pc) : (s.atNext n).getReg r = s.getReg r := by
  cases r with
  | pc => exact absurd rfl h
  | fl => rfl
  | gpr i => rfl

end

/-! ## What a completing UADD leaves -/

section
variable {s : State} {d1 d2 d3 : Operand}

theorem State.uaddResult_output (h3 : s.resolves d3 = true) (hw : operandWidth d3 = operandWidth d1) :
    (s.uaddResult d1 d2 d3).operandBytes d3 =
      tobe (operandWidth d1) (s.inputSum d1 d2 % 256 ^ operandWidth d1) :=
  State.writeOperand_operandBytes (by simpa using h3) (operandWidth_of_output hw _)

/-- A register byte that is neither the output's nor `OF` is as before. -/
theorem State.uaddResult_regByte (h3 : s.resolves d3 = true) (hw : operandWidth d3 = operandWidth d1) {r : RegName}
    {j : Nat} (hout : s.writesRegByte d3 r j = false) (hof : ¬(r = .fl ∧ j = 0)) :
    (regBytes ((s.uaddResult d1 d2 d3).getReg r))[j]? = (regBytes (s.getReg r))[j]? := by
  rw [State.uaddResult, State.writeOperand_regByte (by simpa using h3) (operandWidth_of_output hw _)
    (by simpa using hout), State.withOf_regByte s _ hof]

theorem State.uaddResult_of (h3 : s.resolves d3 = true) (hw : operandWidth d3 = operandWidth d1)
    (hout : s.writesRegByte d3 .fl 0 = false) :
    (s.uaddResult d1 d2 d3).of = BitVec.ofNat 8 (s.inputSum d1 d2 / 256 ^ operandWidth d1) := by
  have hbyte := State.writeOperand_regByte (s := s.withOf (BitVec.ofNat 8 (s.inputSum d1 d2 / 256 ^ operandWidth d1)))
    (r := .fl) (j := 0) (by simpa using h3)
    (operandWidth_of_output hw (s.inputSum d1 d2 % 256 ^ operandWidth d1)) (by simpa using hout)
  rw [State.getReg_fl, State.getReg_fl, State.flBytes_zero, State.flBytes_zero, State.withOf_of] at hbyte
  exact Option.some.inj hbyte

theorem State.uaddResult_get (hw : operandWidth d3 = operandWidth d1) {a : Nat} (ha : storesTo d3 a = false) :
    (s.uaddResult d1 d2 d3).mem.get a = s.mem.get a :=
  State.writeOperand_get (operandWidth_of_output hw _) ha

@[simp] theorem State.uaddResult_run : (s.uaddResult d1 d2 d3).run = s.run := by simp [State.uaddResult]
@[simp] theorem State.uaddResult_out : (s.uaddResult d1 d2 d3).out = s.out := by simp [State.uaddResult]
@[simp] theorem State.uaddResult_stop : (s.uaddResult d1 d2 d3).stop = s.stop := by simp [State.uaddResult]
@[simp] theorem State.uaddResult_random : (s.uaddResult d1 d2 d3).random = s.random := by simp [State.uaddResult]
@[simp] theorem State.uaddResult_mem_size : (s.uaddResult d1 d2 d3).mem.size = s.mem.size := by
  simp [State.uaddResult]
@[simp] theorem State.uaddResult_gpr_length : (s.uaddResult d1 d2 d3).gpr.length = s.gpr.length := by
  simp [State.uaddResult]

end

/-! ## The statements -/

/-- Settles O36: the disjuncts are the branches of the failure in their order. -/
theorem uaddFailsInOrder : Obligations.UaddFailsInOrder := by
  intro d1 d2 d3 s k _ hcond
  have hfail : s.uaddFailure d1 d2 d3 = some k := by
    unfold State.uaddFailure
    rcases hcond with ⟨h1, rfl⟩ | ⟨h1, h2, rfl⟩ | ⟨h1, h2, h3, rfl⟩ | ⟨h1, h2, h3, hw, rfl⟩ |
      ⟨h1, h2, h3, hw, hw3, rfl⟩ <;> simp [*]
  exact exec_uadd_of_fails hfail

/-- Settles O34: the operands resolve and have one width, so the UADD completes. -/
theorem uaddWritesSumAndCarry : Obligations.UaddWritesSumAndCarry := by
  rintro d1 d2 d3 s n h1 h2 h3 rfl hw2 hw3 _
  have hok := State.uaddFailure_eq_none_iff.mpr ⟨h1, h2, h3, hw2, hw3⟩
  refine ⟨_, exec_uadd_of_completes hok, ?output, ?flag, State.uaddResult_run, State.uaddResult_out⟩
  case output => exact State.uaddResult_output (by simpa using h3) hw3
  case flag => exact fun hout => State.uaddResult_of (by simpa using h3) hw3 (by simpa using hout)

/-- Settles O35: a failing UADD has moved the PC only, and a completing one leaves what its result leaves. -/
theorem uaddFrame : Obligations.UaddFrame := by
  intro d1 d2 d3 s t _ hexec
  cases hfail : s.uaddFailure d1 d2 d3 with
  | some k =>
    rw [exec_uadd_of_fails hfail] at hexec
    cases hexec
    refine ⟨fun a _ => rfl, fun r j _ _ hr => ?_, fun j _ => ?_, rfl, rfl, rfl, rfl, rfl⟩
    · exact congrArg (fun q => (regBytes q)[j]?) (State.atNext_getReg s _ hr)
    · rw [State.fail_pc, State.atNext_pcBytes]
  | none =>
    rw [exec_uadd_of_completes hfail] at hexec
    cases hexec
    obtain ⟨-, -, h3, -, hw⟩ := State.uaddFailure_eq_none_iff.mp hfail
    have h3' : (s.atNext (1 + d1.length + d2.length + d3.length)).resolves d3 = true := by simpa using h3
    refine ⟨fun a ha => State.uaddResult_get hw ha, fun r j hout hof hr => ?_, fun j hout => ?_, State.uaddResult_out,
      State.uaddResult_stop, State.uaddResult_random, State.uaddResult_mem_size, State.uaddResult_gpr_length⟩
    · rw [State.uaddResult_regByte h3' hw (by simpa using hout) hof, State.atNext_getReg s _ hr]
    · rw [← State.atNext_pcBytes]
      exact State.uaddResult_regByte (r := .pc) h3' hw (by simpa using hout) (by simp)

theorem State.inputSum_comm (s : State) (d1 d2 : Operand) : s.inputSum d1 d2 = s.inputSum d2 d1 := Nat.add_comm ..

/-- Inputs that resolve fail the same way in either order. -/
theorem State.uaddFailure_comm {s : State} {d1 d2 : Operand} (h1 : s.resolves d1 = true) (h2 : s.resolves d2 = true)
    (d3 : Operand) : s.uaddFailure d1 d2 d3 = s.uaddFailure d2 d1 d3 := by
  by_cases hw : operandWidth d1 = operandWidth d2
  · simp only [State.uaddFailure, h1, h2, hw, Bool.true_eq_false, if_false]
  · simp only [State.uaddFailure, h1, h2, Ne.symm hw, hw, Bool.true_eq_false, if_false, ne_eq, not_false_eq_true,
      if_true]

/-- Settles O37: the failures, the sum and the length of the instruction are the same in either order. -/
theorem uaddIsCommutative : Obligations.UaddIsCommutative := by
  intro d1 d2 d3 s h1 h2
  have hlen : 1 + d1.length + d2.length + d3.length = 1 + d2.length + d1.length + d3.length := by omega
  have hcomm := State.uaddFailure_comm h1 h2 d3
  cases hfail : s.uaddFailure d1 d2 d3 with
  | some k => rw [exec_uadd_of_fails hfail, exec_uadd_of_fails (hcomm ▸ hfail), hlen]
  | none =>
    obtain ⟨-, -, -, hw, -⟩ := State.uaddFailure_eq_none_iff.mp hfail
    rw [exec_uadd_of_completes hfail, exec_uadd_of_completes (hcomm ▸ hfail), hlen, State.uaddResult,
      State.uaddResult, State.inputSum_comm, hw]

/-- Settles O38: with a zero input the sum is the other input, below the carry. -/
theorem uaddOfZeroCopies : Obligations.UaddOfZeroCopies := by
  intro d1 d2 d3 s h1 h2 h3 hw2 hw3 hfits hzero
  obtain ⟨t, hexec, hout, hflag, -, -⟩ := uaddWritesSumAndCarry d1 d2 d3 s _ h1 h2 h3 rfl hw2 hw3 hfits
  have hlen := State.operandBytes_length (s := s.atNext (1 + d1.length + d2.length + d3.length)) (d := d1)
    (by simpa using h1)
  have hlt := be_lt ((s.atNext (1 + d1.length + d2.length + d3.length)).operandBytes d1)
  rw [hlen] at hlt
  rw [hzero, Nat.add_zero] at hout hflag
  refine ⟨t, hexec, ?_, fun hov => ?_⟩
  · rw [hout, tobe_mod, ← hlen, tobe_be]
  · rw [hflag hov, Nat.div_eq_of_lt hlt]
    rfl

/-- Settles O39: the output is the PC's 8 bytes, whose number is the PC. -/
theorem uaddToPcJumps : Obligations.UaddToPcJumps := by
  intro d1 d2 s h1 h2 hw1 hw2 hfits
  have hlen : 1 + d1.length + d2.length + (Operand.reg 0x70 0x63 []).length = 4 + d1.length + d2.length := by
    simp only [Operand.length]; omega
  obtain ⟨t, hexec, hout, -⟩ := uaddWritesSumAndCarry d1 d2 (.reg 0x70 0x63 []) s 8 h1 h2 s.resolves_pc hw1 hw2 rfl
    (hlen ▸ hfits)
  refine ⟨t, hexec, ?_⟩
  rw [State.operandBytes_pc, hlen] at hout
  rw [← be_regBytes, hout, be_tobe, Nat.mod_mod]
  rfl

/-- A fetch after a jump in bounds reads the byte jumped to (20_memory.md section 5). -/
theorem State.fetch_jump {s : State} {a : Nat} (hin : a < s.mem.size) (ha : a + 1 < 2 ^ 64) :
    (s.jump a).fetch = .ok (s.mem.get a, (s.jump a).advance 1) := by
  have hpc : (s.jump a).pc.toNat = a := by
    rw [State.jump_pc, BitVec.toNat_ofNat]
    exact Nat.mod_eq_of_lt (by omega)
  rw [State.fetch_eq, hpc, State.jump_mem, if_pos ⟨hin, ha⟩]

/-- Settles O40: the UADD completed, so its output holds the sum's low bytes, and a fetch reads memory. -/
theorem storedByteIsFetched : Obligations.StoredByteIsFetched := by
  intro d1 d2 w a s t j hsize hj _ hexec hrun x y
  have hlen : 1 + d1.length + d2.length + (Operand.mem w a).length = 6 + d1.length + d2.length := by
    simp only [Operand.length]; omega
  cases hfail : s.uaddFailure d1 d2 (.mem w a) with
  | some k =>
    rw [exec_uadd_of_fails hfail] at hexec
    cases hexec
    cases hrun
  | none =>
    obtain ⟨-, -, h3, -, hw⟩ := State.uaddFailure_eq_none_iff.mp hfail
    rw [exec_uadd_of_completes hfail, hlen] at hexec
    cases hexec
    have hin : a.toNat + w.toNat ≤ s.mem.size := of_decide_eq_true h3
    have hout := State.uaddResult_output (s := s.atNext (6 + d1.length + d2.length)) (d2 := d2) (by simpa using h3) hw
    rw [← hw] at hout
    refine ⟨_, _, ?stored, State.fetch_jump ?inBounds (by omega)⟩
    case stored =>
      exact (congrArg (·[j]?) hout.symm).trans (Memory.getBytes_getElem? _ _ hj)
    case inBounds =>
      simp only [State.uaddResult_mem_size, State.atNext]
      omega

end Sys2Proof.Machine
end

