-- ==== Sys2Proof/Proofs/StepEffects.lean ====
section
/-! What an instruction and a cycle can do to the state, said once, and the statements about every step derived from it
(40_cycle.md R79; 41_control_io.md; 60_exceptions.md R112, R113). -/

namespace Sys2Proof.Machine

/-! ## Instructions -/

/-- What an instruction at the PC of `s` can leave: it fails having moved the PC only, halts, emits events, or is a UADD
that completes. -/
inductive Effect (s : State) (i : Instr) : State → Prop where
  | fails (k : FailKind) (hop : i.opcode = opMout ∨ i.opcode = opSta ∨ i.opcode = opUadd) :
      Effect s i ((s.atNext i.length).fail k s.pc (some i.opcode))
  | halts (hop : i.opcode = opHalt) : Effect s i (s.atNext i.length).halt
  | emits (es : List OutEvent)
      (hop : i.opcode = opOutu ∨ i.opcode = opOutc ∨ i.opcode = opCout ∨ i.opcode = opMout) :
      Effect s i { s.atNext i.length with out := s.out ++ es }
  | adds (d1 d2 d3 : Operand) (hop : i.opcode = opUadd) (hok : s.uaddFailure d1 d2 d3 = none) :
      Effect s i ((s.atNext i.length).uaddResult d1 d2 d3)

/-- Every instruction answers a next state, with one of these effects. -/
theorem exec_effect (i : Instr) (s : State) : ∃ t, exec i s = .next t ∧ Effect s i t := by
  cases i with
  | halt => exact ⟨_, exec_halt s, .halts rfl⟩
  | outu b => exact ⟨_, exec_outu b s, .emits _ (.inl rfl)⟩
  | outc b => exact ⟨_, exec_outc b s, .emits _ (.inr (.inl rfl))⟩
  | cout str => exact ⟨_, exec_cout str s, .emits _ (.inr (.inr (.inl rfl)))⟩
  | sta d => exact ⟨_, exec_sta d s, .fails _ (.inr (.inl rfl))⟩
  | mout d =>
    cases hd : s.resolves d with
    | false => exact ⟨_, exec_mout_of_not_resolves hd, .fails _ (.inl rfl)⟩
    | true => exact ⟨_, exec_mout_of_resolves hd, .emits _ (.inr (.inr (.inr rfl)))⟩
  | uadd d1 d2 d3 =>
    cases hfail : s.uaddFailure d1 d2 d3 with
    | some k => exact ⟨_, exec_uadd_of_fails hfail, .fails k (.inr (.inr rfl))⟩
    | none => exact ⟨_, exec_uadd_of_completes hfail, .adds d1 d2 d3 rfl hfail⟩

theorem effect_of_exec {i : Instr} {s t : State} (h : exec i s = .next t) : Effect s i t := by
  obtain ⟨u, hu, heff⟩ := exec_effect i s
  rw [h] at hu
  cases hu
  exact heff

section
variable {s t : State} {i : Instr}

/-- What no instruction changes. -/
theorem Effect.fixed (h : Effect s i t) :
    t.stop = s.stop ∧ t.random = s.random ∧ t.mem.size = s.mem.size ∧ t.gpr.length = s.gpr.length := by
  cases h with
  | fails k _ => exact ⟨rfl, rfl, rfl, rfl⟩
  | halts _ => exact ⟨rfl, rfl, rfl, rfl⟩
  | emits es _ => exact ⟨rfl, rfl, rfl, rfl⟩
  | adds d1 d2 d3 _ _ =>
    exact ⟨State.uaddResult_stop, State.uaddResult_random, State.uaddResult_mem_size, State.uaddResult_gpr_length⟩

/-- What no instruction but UADD changes, and where it leaves the PC. -/
theorem Effect.data (h : Effect s i t) (hop : i.opcode ≠ opUadd) :
    t.pc = (s.atNext i.length).pc ∧ t.fl = s.fl ∧ t.gpr = s.gpr ∧ t.mem = s.mem := by
  cases h with
  | fails k _ => exact ⟨rfl, rfl, rfl, rfl⟩
  | halts _ => exact ⟨rfl, rfl, rfl, rfl⟩
  | emits es _ => exact ⟨rfl, rfl, rfl, rfl⟩
  | adds d1 d2 d3 hadd _ => exact absurd hadd hop

/-- Only the four output instructions add to the log. -/
theorem Effect.out (h : Effect s i t) :
    t.out = s.out ∨
      (i.opcode = opOutu ∨ i.opcode = opOutc ∨ i.opcode = opCout ∨ i.opcode = opMout) ∧ ∃ es, t.out = s.out ++ es := by
  cases h with
  | fails k _ => exact .inl rfl
  | halts _ => exact .inl rfl
  | emits es hop => exact .inr ⟨hop, es, rfl⟩
  | adds d1 d2 d3 _ _ => exact .inl State.uaddResult_out

/-- The run state is as before but for a halt and a failure. -/
theorem Effect.run (h : Effect s i t) :
    t.run = s.run ∨ i.opcode = opHalt ∧ t.run = .halted ∨
      ∃ k, (i.opcode = opMout ∨ i.opcode = opSta ∨ i.opcode = opUadd) ∧
        t = (s.atNext i.length).fail k s.pc (some i.opcode) := by
  cases h with
  | fails k hop => exact .inr (.inr ⟨k, hop, rfl⟩)
  | halts hop => exact .inr (.inl ⟨hop, rfl⟩)
  | emits es _ => exact .inl rfl
  | adds d1 d2 d3 _ _ => exact .inl State.uaddResult_run

/-- Writing an operand that resolves keeps memory canonical. -/
theorem State.writeOperand_mem_wf {d : Operand} {v : List Byte} (hm : s.mem.wf) (h : s.resolves d = true)
    (hv : v.length = operandWidth d) : (s.writeOperand d v).mem.wf := by
  cases d with
  | mem w a => exact Memory.putBytes_wf hm (hv ▸ of_decide_eq_true h)
  | reg c0 c1 p =>
    obtain ⟨⟨r, hr⟩, -⟩ := State.resolves_reg h
    rw [State.writeOperand_reg hr, State.withSector, State.setReg_mem]
    exact hm

theorem Effect.mem_wf (h : Effect s i t) (hm : s.mem.wf) : t.mem.wf := by
  cases h with
  | fails k _ => exact hm
  | halts _ => exact hm
  | emits es _ => exact hm
  | adds d1 d2 d3 _ hok =>
    obtain ⟨-, -, h3, -, hw⟩ := State.uaddFailure_eq_none_iff.mp hok
    exact State.writeOperand_mem_wf hm (by simpa using h3) (operandWidth_of_output hw _)

end

/-! ## A cycle -/

/-- Every next state of a step, with what the decoder says of the bytes at the PC: the run cancelled, an instruction's
effect, an illegal opcode's failure or a cut instruction's. -/
inductive StepEffect (s : State) : State → Prop where
  | cancels (hstop : s.stopAsserted = true) : StepEffect s s.cancel
  | executes {i : Instr} {t : State} (hstop : s.stopAsserted = false) (hop : s.codeStream 0 = some i.opcode)
      (hfetched : Stream.Fetched s.codeStream 0 i.length) (heff : Effect s.sampleStop i t) : StepEffect s t
  | illegal {op : Byte} (hstop : s.stopAsserted = false) (hop : s.codeStream 0 = some op) :
      StepEffect s (s.sampleStop.failIllegal op)
  | truncated {n : Nat} (hstop : s.stopAsserted = false) (hfetched : Stream.Fetched s.codeStream 0 n) :
      StepEffect s (s.sampleStop.failTruncated n)

theorem stepEffect_of_step {s t : State} (h : step s = .next t) : StepEffect s t := by
  have hdec := s.sampleStop.fetchInstr_describes
  rw [State.sampleStop_codeStream] at hdec
  obtain ⟨-, ⟨hstop, rfl⟩ | ⟨hstop, ⟨i, n, hf, hexec⟩ | ⟨op, hf, rfl⟩ | ⟨n, hf, rfl⟩⟩⟩ := step_cases h
  · exact .cancels hstop
  · rw [hf] at hdec
    obtain ⟨-, rfl, hop, hfetched⟩ := hdec
    exact .executes hstop hop hfetched (effect_of_exec hexec)
  · rw [hf] at hdec
    exact .illegal hstop hdec
  · rw [hf] at hdec
    exact .truncated hstop hdec.2

/-- A Running core steps. -/
theorem exists_step {s : State} (hrun : s.run = .running) : ∃ t, step s = .next t := by
  cases hstop : s.stopAsserted with
  | true => exact ⟨_, step_of_stop hrun hstop⟩
  | false =>
    cases hf : s.sampleStop.fetchInstr with
    | ok i n =>
      obtain ⟨t, hexec, -⟩ := exec_effect i s.sampleStop
      exact ⟨t, (step_of_ok ⟨hrun, hstop⟩ hf).trans hexec⟩
    | illegal op => exact ⟨_, step_of_illegal ⟨hrun, hstop⟩ hf⟩
    | truncated n => exact ⟨_, step_of_truncated ⟨hrun, hstop⟩ hf⟩

/-! ## The statements -/

/-- Settles O25: each case of the step and each instruction's effect is a next state. -/
theorem runningCoreAlwaysSteps : Obligations.RunningCoreAlwaysSteps :=
  ⟨fun _ hrun => exists_step hrun, fun i s => (exec_effect i s).imp fun _ h => h.1⟩

theorem opcode_ne_uadd {i : Instr} (h : ∀ d1 d2 d3, i ≠ .uadd d1 d2 d3) : i.opcode ≠ opUadd := by
  cases i with
  | uadd d1 d2 d3 => exact absurd rfl (h d1 d2 d3)
  | halt => decide
  | outu b => exact (by decide : opOutu ≠ opUadd)
  | outc b => exact (by decide : opOutc ≠ opUadd)
  | cout str => exact (by decide : opCout ≠ opUadd)
  | mout d => exact (by decide : opMout ≠ opUadd)
  | sta d => exact (by decide : opSta ≠ opUadd)

/-- HALT and STA are not among the opcodes that emit. -/
theorem quietOpcode_ne {op : Byte} (h : op = opHalt ∨ op = opSta) :
    ¬(op = opOutu ∨ op = opOutc ∨ op = opCout ∨ op = opMout) := by
  rcases h with rfl | rfl <;> decide

/-- OUTU, OUTC and COUT are not among the opcodes that halt or fail once fetched. -/
theorem outputOpcode_ne {op : Byte} (h : op = opOutu ∨ op = opOutc ∨ op = opCout) :
    op ≠ opHalt ∧ ¬(op = opMout ∨ op = opSta ∨ op = opUadd) := by
  rcases h with rfl | rfl | rfl <;> decide

/-- Settles O41: an instruction that is no UADD fails, halts or emits, by its opcode. -/
theorem nonArithmeticFrame : Obligations.NonArithmeticFrame := by
  intro i s t hi _ hexec
  have heff := effect_of_exec hexec
  obtain ⟨hpc, hfl, hgpr, hmem⟩ := heff.data (opcode_ne_uadd hi)
  obtain ⟨hstop, hrandom, hsize, -⟩ := heff.fixed
  refine ⟨hpc, hfl, hgpr, fun a => by rw [hmem], hsize, hstop, hrandom, fun hquiet => ?_, fun hgoes => ?_⟩
  · have hop : i.opcode = opHalt ∨ i.opcode = opSta := by
      rcases hquiet with rfl | ⟨d, rfl⟩
      · exact .inl rfl
      · exact .inr rfl
    exact heff.out.resolve_right fun hemits => quietOpcode_ne hop hemits.1
  · have hop : i.opcode = opOutu ∨ i.opcode = opOutc ∨ i.opcode = opCout := by
      rcases hgoes with ⟨b, rfl⟩ | ⟨b, rfl⟩ | ⟨str, rfl⟩
      · exact .inl rfl
      · exact .inr (.inl rfl)
      · exact .inr (.inr rfl)
    obtain ⟨hnoHalt, hnoFailure⟩ := outputOpcode_ne hop
    rcases heff.run with hrun | ⟨hhalt, -⟩ | ⟨k, hfails, -⟩
    · exact hrun
    · exact absurd hhalt hnoHalt
    · exact absurd hfails hnoFailure

/-- Settles O44: no instruction changes the two counts, and no failure does. -/
theorem capacityAndRegisterCountAreFixed : Obligations.CapacityAndRegisterCountAreFixed := by
  intro s t h
  cases stepEffect_of_step h with
  | cancels _ => exact ⟨rfl, rfl⟩
  | executes _ _ _ heff =>
    obtain ⟨-, -, hsize, hgpr⟩ := heff.fixed
    exact ⟨hsize, hgpr⟩
  | illegal _ _ => exact ⟨rfl, rfl⟩
  | truncated _ _ => exact ⟨rfl, rfl⟩

/-- Settles O42: a write to memory is of an output in bounds, and the register count is fixed. -/
theorem stepKeepsInvariant : Obligations.StepKeepsInvariant := by
  rintro s t ⟨hmem, hgpr⟩ h
  obtain ⟨-, hcount⟩ := capacityAndRegisterCountAreFixed s t h
  refine ⟨?_, hcount ▸ hgpr⟩
  cases stepEffect_of_step h with
  | cancels _ => exact hmem
  | executes _ _ _ heff => exact heff.mem_wf hmem
  | illegal _ _ => exact hmem
  | truncated _ _ => exact hmem

/-- A log that is as before has grown by no event. -/
theorem logGrows_of_eq {s t : State} (h : t.out = s.out) :
    (∃ es, t.out = s.out ++ es) ∧
      (t.out ≠ s.out → ∃ op, s.codeStream 0 = some op ∧ (op = 0x01 ∨ op = 0x02 ∨ op = 0x03 ∨ op = 0x04)) :=
  ⟨⟨[], by rw [h, List.append_nil]⟩, fun hne => absurd h hne⟩

/-- Settles O45: the four output instructions emit, a cut COUT among them, and nothing else does. -/
theorem outputLogOnlyGrows : Obligations.OutputLogOnlyGrows := by
  intro s t h
  cases stepEffect_of_step h with
  | cancels _ => exact logGrows_of_eq rfl
  | executes _ hop _ heff =>
    rcases heff.out with hsame | ⟨hemits, hgrows⟩
    · exact logGrows_of_eq hsame
    · exact ⟨hgrows, fun _ => ⟨_, hop, hemits⟩⟩
  | illegal _ _ => exact logGrows_of_eq rfl
  | @truncated n _ _ =>
    refine ⟨⟨_, rfl⟩, fun hne => ⟨opCout, ?_, .inr (.inr (.inl rfl))⟩⟩
    by_contra hcout
    exact hne (State.failTruncated_out (s := s.sampleStop) (by rwa [State.sampleStop_codeStream]) n)

/-- Settles O46: a UADD's opcode is the one at the PC. -/
theorem onlyUaddWritesData : Obligations.OnlyUaddWritesData := by
  intro s t h hne
  cases stepEffect_of_step h with
  | cancels _ => exact ⟨rfl, rfl, rfl⟩
  | executes _ hop _ heff =>
    obtain ⟨-, hfl, hgpr, hmem⟩ := heff.data (fun e => hne (hop.trans (congrArg some e)))
    exact ⟨hfl, hgpr, hmem⟩
  | illegal _ _ => exact ⟨rfl, rfl, rfl⟩
  | truncated _ _ => exact ⟨rfl, rfl, rfl⟩

/-- Over bytes that were fetched the PC has not wrapped (10_state.md R22). -/
theorem State.advance_toNat_of_fetched {s : State} {n : Nat} (h : Stream.Fetched s.codeStream 0 n) :
    (s.advance n).pc.toNat = s.pc.toNat + n := by
  refine State.advance_toNat ?_
  cases n with
  | zero => exact s.pc.isLt
  | succ n =>
    have hlast := h n (Nat.zero_le n) (Nat.lt_succ_self n)
    rw [State.codeStream_eq] at hlast
    split at hlast
    · omega
    · cases hlast

/-- Settles O47: a failing cycle is a failing instruction, an illegal opcode or a cut instruction. -/
theorem failuresArePrecise : Obligations.FailuresArePrecise := by
  intro s t rec _ h hrec
  have hrun := (step_cases h).1
  have moved {n : Nat} (hf : Stream.Fetched s.codeStream 0 n) :
      ∃ m, (s.advance n).pc.toNat = s.pc.toNat + m ∧ ∀ k, k < m → (s.codeStream k).isSome = true :=
    ⟨n, State.advance_toNat_of_fetched hf, fun k hk => hf k (Nat.zero_le k) hk⟩
  cases stepEffect_of_step h with
  | cancels _ => cases hrec
  | executes _ hop hfetched heff =>
    rcases heff.run with hsame | ⟨-, hhalt⟩ | ⟨k, -, rfl⟩
    · rw [hrec, State.sampleStop_run, hrun] at hsame
      cases hsame
    · rw [hrec] at hhalt
      cases hhalt
    · cases hrec
      rw [State.atNext_eq_advance]
      exact ⟨rfl, rfl, rfl, rfl, hop.symm, moved hfetched, fun _ => rfl⟩
  | illegal _ hop =>
    cases hrec
    have hone : Stream.Fetched s.codeStream 0 1 := Stream.fetched_self.succ hop
    exact ⟨rfl, rfl, rfl, rfl, hop.symm, moved hone, fun _ => rfl⟩
  | @truncated n _ hfetched =>
    cases hrec
    have hcode := State.sampleStop_codeStream s
    exact ⟨rfl, rfl, rfl, rfl, congrFun hcode 0, moved hfetched,
      fun hcout => State.failTruncated_out (s := s.sampleStop) (hcode.symm ▸ hcout) n⟩

/-- Settles O59: the log grows by the events, and the rendering of a log is that of its parts. -/
theorem renderedTextOnlyGrows : Obligations.RenderedTextOnlyGrows := by
  intro render s t h
  obtain ⟨⟨es, hout⟩, -⟩ := outputLogOnlyGrows s t h
  exact ⟨es, hout, by rw [hout, renderLog_append]⟩

/-! ## The random source -/

/-- The state with the random source at `r`. -/
def State.withRandom (s : State) (r : Nat) : State :=
  { s with random := r }

section
variable (s : State) (r : Nat)

theorem State.withRandom_codeStream : (s.withRandom r).codeStream = s.codeStream := by
  funext k
  rw [State.codeStream_eq, State.codeStream_eq]
  rfl

theorem State.withRandom_fetchInstr : (s.withRandom r).sampleStop.fetchInstr = s.sampleStop.fetchInstr := by
  rw [State.fetchInstr, State.fetchInstr, State.sampleStop_codeStream, State.sampleStop_codeStream,
    State.withRandom_codeStream]
  rfl

theorem State.withRandom_resolves (d : Operand) : (s.withRandom r).resolves d = s.resolves d := by cases d <;> rfl

theorem State.withRandom_operandBytes (d : Operand) : (s.withRandom r).operandBytes d = s.operandBytes d := by
  cases d with
  | mem w a => rfl
  | reg c0 c1 p =>
    simp only [State.operandBytes, State.withRandom]
    split
    · next q _ => cases q <;> rfl
    · rfl

theorem State.withRandom_setReg (q : RegName) (v : Reg) :
    (s.withRandom r).setReg q v = (s.setReg q v).withRandom r := by cases q <;> rfl

theorem State.withRandom_getReg (q : RegName) : (s.withRandom r).getReg q = s.getReg q := by cases q <;> rfl

theorem State.withRandom_writeOperand (d : Operand) (v : List Byte) :
    (s.withRandom r).writeOperand d v = (s.writeOperand d v).withRandom r := by
  cases d with
  | mem w a => rfl
  | reg c0 c1 p =>
    have hlen : (s.withRandom r).gpr.length = s.gpr.length := rfl
    simp only [State.writeOperand, hlen, State.withRandom_getReg, State.withRandom_setReg]
    split <;> rfl

theorem State.withRandom_uaddFailure (d1 d2 d3 : Operand) :
    (s.withRandom r).uaddFailure d1 d2 d3 = s.uaddFailure d1 d2 d3 := by
  simp only [State.uaddFailure, State.withRandom_resolves]

theorem State.withRandom_uaddResult (d1 d2 d3 : Operand) :
    (s.withRandom r).uaddResult d1 d2 d3 = (s.uaddResult d1 d2 d3).withRandom r := by
  have hof (b : Byte) : (s.withRandom r).withOf b = (s.withOf b).withRandom r := rfl
  simp only [State.uaddResult, State.inputSum, State.withRandom_operandBytes, hof, State.withRandom_writeOperand]

theorem State.withRandom_failTruncated (n : Nat) :
    (s.withRandom r).failTruncated n = (s.failTruncated n).withRandom r := by
  simp only [State.failTruncated, State.partialChars, State.withRandom_codeStream]
  rfl

end

/-- No instruction reads the random source. -/
theorem exec_withRandom {i : Instr} {s t : State} (h : exec i s = .next t) (r : Nat) :
    exec i (s.withRandom r) = .next (t.withRandom r) := by
  cases i with
  | halt => rw [exec_halt] at h ⊢; cases h; rfl
  | outu b => rw [exec_outu] at h ⊢; cases h; rfl
  | outc b => rw [exec_outc] at h ⊢; cases h; rfl
  | cout str => rw [exec_cout] at h ⊢; cases h; rfl
  | sta d => rw [exec_sta] at h ⊢; cases h; rfl
  | mout d =>
    have hres := s.withRandom_resolves r d
    cases hd : s.resolves d with
    | false =>
      rw [exec_mout_of_not_resolves hd] at h
      rw [exec_mout_of_not_resolves (hres.trans hd)]
      cases h; rfl
    | true =>
      have hbytes : ((s.withRandom r).atNext (1 + d.length)).operandBytes d =
          (s.atNext (1 + d.length)).operandBytes d := (s.atNext (1 + d.length)).withRandom_operandBytes r d
      rw [exec_mout_of_resolves hd] at h
      rw [exec_mout_of_resolves (hres.trans hd), hbytes]
      cases h; rfl
  | uadd d1 d2 d3 =>
    have hsame := s.withRandom_uaddFailure r d1 d2 d3
    cases hfail : s.uaddFailure d1 d2 d3 with
    | some k =>
      rw [exec_uadd_of_fails hfail] at h
      rw [exec_uadd_of_fails (hsame.trans hfail)]
      cases h; rfl
    | none =>
      rw [exec_uadd_of_completes hfail] at h
      rw [exec_uadd_of_completes (hsame.trans hfail)]
      cases h
      exact congrArg _ ((s.atNext (1 + d1.length + d2.length + d3.length)).withRandom_uaddResult r d1 d2 d3)

/-- No cycle reads the random source. -/
theorem step_withRandom {s t : State} (h : step s = .next t) (r : Nat) :
    step (s.withRandom r) = .next (t.withRandom r) := by
  have hsame := s.withRandom_fetchInstr r
  obtain ⟨hrun, ⟨hstop, rfl⟩ | ⟨hstop, ⟨i, n, hf, hexec⟩ | ⟨op, hf, rfl⟩ | ⟨n, hf, rfl⟩⟩⟩ := step_cases h
  · exact step_of_stop hrun hstop
  · exact (step_of_ok (s := s.withRandom r) ⟨hrun, hstop⟩ (hsame.trans hf)).trans (exec_withRandom hexec r)
  · exact step_of_illegal (s := s.withRandom r) ⟨hrun, hstop⟩ (hsame.trans hf)
  · rw [step_of_truncated (s := s.withRandom r) ⟨hrun, hstop⟩ (hsame.trans hf)]
    exact congrArg _ (State.withRandom_failTruncated s.sampleStop r n)

/-- Settles O48: no effect of a step changes the counter, and none reads it. -/
theorem randomSourceIsNeverUsed : Obligations.RandomSourceIsNeverUsed := by
  intro s t r h
  refine ⟨?_, step_withRandom h r⟩
  cases stepEffect_of_step h with
  | cancels _ => rfl
  | executes _ _ _ heff =>
    obtain ⟨-, hrandom, -⟩ := heff.fixed
    exact hrandom
  | illegal _ _ => rfl
  | truncated _ _ => rfl

end Sys2Proof.Machine
end

