-- ==== Sys2Proof/Proofs/RunAndHost.lean ====
section
/-! Reset, construction, the run loop and the host's interaction, and the statements about them (10_state.md R32;
70_reset_and_hazards.md R127 to R131; 40_cycle.md R78, R93 to R95). -/

namespace Sys2Proof.Machine

/-! ## Reset and construction -/

/-- Settles O43: memory is empty, and the register count is the largest one admitted. -/
theorem resetMeetsInvariant : Obligations.ResetMeetsInvariant :=
  ⟨reset_mem_wf, State.reset_gpr_length.le⟩

/-- Settles O49: the fields of the reset state that stand in the statement are written there. -/
theorem resetStateAsGiven : Obligations.ResetStateAsGiven :=
  ⟨by decide, by decide, rfl, rfl, rfl⟩

/-- Settles O52: the codes are written in the table. -/
theorem failureKindCodes : Obligations.FailureKindCodes :=
  ⟨rfl, rfl, rfl, rfl⟩

/-- The host's inputs are accepted within these bounds (70_reset_and_hazards.md R130). -/
theorem Construction.accepted_iff {c : Construction} :
    c.accepted = true ↔ c.image.length ≤ c.capacity ∧ c.capacity < 2 ^ 64 ∧ c.gprInit.length ≤ Config.maxGpr ∧
      c.image.length + c.fill.length ≤ c.capacity := by
  simp only [Construction.accepted, Bool.and_eq_true, decide_eq_true_eq, and_assoc]

/-- Settles O51: each refused input breaks one bound. -/
theorem constructionRefusesBadInputs : Obligations.ConstructionRefusesBadInputs := by
  intro c hbad
  rw [construct, if_neg]
  intro hacc
  obtain ⟨himage, hsize, hgpr, -⟩ := Construction.accepted_iff.mp hacc
  simp only [Config.maxGpr] at hgpr
  omega

/-- The memory a construction loads: the image at 0, then the fill. -/
def Construction.memory (c : Construction) : Memory :=
  Memory.putBytes { size := c.capacity, cells := [] } 0 (c.image ++ c.fill)

/-- The state a construction leaves where its inputs are accepted (`construct_of_accepted`). -/
def Construction.state (c : Construction) : State where
  pc := 0
  fl := (0x00 : Byte) ++ c.flInitRest
  gpr := c.gprInit
  mem := c.memory
  run := .running
  out := []
  stop := []
  random := c.seed

theorem construct_of_accepted {c : Construction} (h : c.accepted = true) : construct c = some c.state := if_pos h

theorem Memory.empty_wf {n : Nat} (h : n < 2 ^ 64) : (Memory.mk n []).wf :=
  ⟨List.Pairwise.nil, fun _ hc => (List.not_mem_nil hc).elim, h⟩

@[simp] theorem Construction.memory_size (c : Construction) : c.memory.size = c.capacity :=
  Memory.putBytes_size ..

theorem Construction.memory_get {c : Construction} {a : Nat} {b : Byte} (h : (c.image ++ c.fill)[a]? = some b) :
    c.memory.get a = b := by
  obtain ⟨ha, rfl⟩ := List.getElem?_eq_some_iff.mp h
  rw [Construction.memory, Memory.get_putBytes, if_pos ⟨Nat.zero_le a, by omega⟩, Nat.sub_zero,
    List.getD_eq_getElem?_getD, h, Option.getD_some]

theorem Construction.state_inv {c : Construction} (h : c.accepted = true) : c.state.Inv := by
  obtain ⟨-, hsize, hgpr, hfits⟩ := Construction.accepted_iff.mp h
  refine ⟨Memory.putBytes_wf (Memory.empty_wf hsize) ?_, hgpr⟩
  rw [List.length_append, Nat.zero_add]
  exact hfits

/-- The Flag register after a construction: `OF` clear, then the host's seven bytes. -/
theorem regBytes_zero_append (rest : BitVec 56) : regBytes ((0x00 : Byte) ++ rest) = 0x00 :: tobe 7 rest.toNat := by
  have hlt : rest.toNat < 256 ^ 7 := rest.isLt
  have hnat : ((0x00 : Byte) ++ rest).toNat = rest.toNat :=
    (BitVec.toNat_append ..).trans (by simp)
  rw [regBytes, hnat, tobe, Nat.div_eq_of_lt hlt]
  rfl

/-- Settles O50: the constructed state is `Construction.state`, and its memory reads the image, then the fill. -/
theorem constructionLoadsImage : Obligations.ConstructionLoadsImage := by
  intro c hacc
  have hfl : regBytes c.state.fl = 0x00 :: tobe 7 c.flInitRest.toNat := regBytes_zero_append c.flInitRest
  refine ⟨c.state, construct_of_accepted hacc, rfl, ?flag, hfl, rfl, rfl, rfl, rfl, rfl, c.memory_size, ?image, ?fill,
    Construction.state_inv hacc⟩
  case flag => rw [State.of, hfl]; rfl
  case image =>
    intro a b hb
    refine Construction.memory_get ?_
    rw [List.getElem?_append_left (List.getElem?_eq_some_iff.mp hb).1, hb]
  case fill =>
    intro a b hb
    refine Construction.memory_get ?_
    rw [List.getElem?_append_right (Nat.le_add_right ..), Nat.add_sub_cancel_left, hb]

/-! ## The run loop -/

/-- The first state of the run from `s` that is not Running is `t`, after `n` cycles. -/
def State.EndsAfter (s : State) (n : Nat) (t : State) : Prop :=
  s.afterCycles n = some t ∧ t.run ≠ .running ∧ ∀ m, m < n → ∃ u, s.afterCycles m = some u ∧ u.run = .running

theorem State.endsAfter_zero {s t : State} : s.EndsAfter 0 t ↔ s = t ∧ t.run ≠ .running := by
  simp [State.EndsAfter, State.afterCycles]

theorem State.EndsAfter.first_running {s t : State} {n : Nat} (h : s.EndsAfter (n + 1) t) : s.run = .running := by
  obtain ⟨-, -, hbefore⟩ := h
  obtain ⟨u, hu, hrun⟩ := hbefore 0 (Nat.zero_lt_succ n)
  cases hu
  exact hrun

theorem State.endsAfter_of_ended {s t : State} {n : Nat} (hs : s.run ≠ .running) (h : s.EndsAfter n t) : s = t := by
  cases n with
  | zero => exact (State.endsAfter_zero.mp h).1
  | succ n => exact absurd h.first_running hs

/-- The first cycle of a run is a step. -/
theorem State.endsAfter_succ {s u t : State} {n : Nat} (hstep : step s = .next u) :
    s.EndsAfter (n + 1) t ↔ u.EndsAfter n t := by
  have hfirst : ∃ v, s.afterCycles 0 = some v ∧ v.run = .running := ⟨s, rfl, (step_cases hstep).1⟩
  simp only [State.EndsAfter, State.afterCycles_of_next hstep]
  refine and_congr_right fun _ => and_congr_right fun _ => ⟨fun h m hm => ?_, fun h m hm => ?_⟩
  · rw [← State.afterCycles_of_next hstep]
    exact h (m + 1) (Nat.succ_lt_succ hm)
  · cases m with
    | zero => exact hfirst
    | succ m =>
      rw [State.afterCycles_of_next hstep]
      exact h m (Nat.lt_of_succ_lt_succ hm)

/-- A run that has ended returns at once, at its first state. -/
theorem State.runLoop_iff_of_ended {s : State} (hs : s.run ≠ .running) {fuel : Nat} {r : RunResult} :
    s.runLoop fuel = some r ↔ ∃ n t, n ≤ fuel ∧ s.EndsAfter n t ∧ r = t.result := by
  rw [State.runLoop_of_ended hs]
  constructor
  · exact fun h => ⟨0, s, Nat.zero_le fuel, State.endsAfter_zero.mpr ⟨rfl, hs⟩, (Option.some.inj h).symm⟩
  · rintro ⟨n, t, -, hends, rfl⟩
    rw [State.endsAfter_of_ended hs hends]

/-- A Running core has not ended after no cycle. -/
theorem State.not_endsAfter_zero {s t : State} (hs : s.run = .running) : ¬s.EndsAfter 0 t := by
  intro h
  obtain ⟨rfl, hended⟩ := State.endsAfter_zero.mp h
  exact hended hs

/-- With some fuel a run returns the result of its first ended state within the fuel. -/
theorem State.runLoop_eq_some_iff {fuel : Nat} {s : State} {r : RunResult} :
    s.runLoop fuel = some r ↔ ∃ n t, n ≤ fuel ∧ s.EndsAfter n t ∧ r = t.result := by
  induction fuel generalizing s with
  | zero =>
    by_cases hrun : s.run = .running
    · rw [State.runLoop_zero hrun]
      constructor
      · intro h
        cases h
      · rintro ⟨n, t, hn, hends, -⟩
        exact absurd (Nat.le_zero.mp hn ▸ hends) (State.not_endsAfter_zero hrun)
    · exact State.runLoop_iff_of_ended hrun
  | succ fuel ih =>
    by_cases hrun : s.run = .running
    · obtain ⟨u, hstep⟩ := exists_step hrun
      rw [State.runLoop_of_next hstep, ih]
      constructor
      · rintro ⟨n, t, hn, hends, hr⟩
        exact ⟨n + 1, t, Nat.succ_le_succ hn, (State.endsAfter_succ hstep).mpr hends, hr⟩
      · rintro ⟨n, t, hn, hends, hr⟩
        cases n with
        | zero => exact absurd hends (State.not_endsAfter_zero hrun)
        | succ n => exact ⟨n, t, Nat.le_of_succ_le_succ hn, (State.endsAfter_succ hstep).mp hends, hr⟩
    · exact State.runLoop_iff_of_ended hrun

theorem State.eq_result_iff {t : State} {r : RunResult} :
    r = t.result ↔ r.run = t.run ∧ r.out = t.out ∧ r.final = t := by
  cases r
  simp only [State.result, RunResult.mk.injEq]

/-- Settles O53: it is the loop's equation, the result taken apart. -/
theorem runReturnsFirstEndedState : Obligations.RunReturnsFirstEndedState := by
  intro s fuel r
  simp only [State.runLoop_eq_some_iff, State.EndsAfter, State.eq_result_iff, and_assoc]

/-- The first ended state of a run is reached after one number of cycles. -/
theorem State.EndsAfter.unique {s t t' : State} {n n' : Nat} (h : s.EndsAfter n t) (h' : s.EndsAfter n' t') :
    t = t' := by
  induction n generalizing s n' with
  | zero =>
    obtain ⟨rfl, hended⟩ := State.endsAfter_zero.mp h
    exact State.endsAfter_of_ended hended h'
  | succ n ih =>
    obtain ⟨u, hstep⟩ := exists_step h.first_running
    cases n' with
    | zero => exact absurd h' (State.not_endsAfter_zero h.first_running)
    | succ n' => exact ih ((State.endsAfter_succ hstep).mp h) ((State.endsAfter_succ hstep).mp h')

/-- Settles O54: two fuels that are enough return the result of the same first ended state. -/
theorem runResultIgnoresFuel : Obligations.RunResultIgnoresFuel := by
  rintro s r r' ⟨fuel, h⟩ ⟨fuel', h'⟩
  obtain ⟨n, t, -, hends, rfl⟩ := State.runLoop_eq_some_iff.mp h
  obtain ⟨n', t', -, hends', rfl⟩ := State.runLoop_eq_some_iff.mp h'
  rw [hends.unique hends']

/-! ## What every step keeps, a run keeps -/

section
variable {P : State → Prop} (hkeep : ∀ s t, P s → step s = .next t → P t)
include hkeep

theorem State.afterCycles_keeps {n : Nat} {s t : State} (hs : P s) (h : s.afterCycles n = some t) : P t := by
  induction n generalizing s with
  | zero =>
    cases h
    exact hs
  | succ n ih =>
    unfold State.afterCycles at h
    split at h
    · next u hstep => exact ih (hkeep s u hs hstep) h
    · cases h
    · cases h

theorem State.runLoop_keeps {fuel : Nat} {s : State} {r : RunResult} (hs : P s) (h : s.runLoop fuel = some r) :
    P r.final := by
  obtain ⟨n, t, -, ⟨hn, -, -⟩, rfl⟩ := State.runLoop_eq_some_iff.mp h
  exact State.afterCycles_keeps hkeep hs hn

end

/-- What a run returns is the result of its final state, which is not Running. -/
theorem State.runLoop_result {fuel : Nat} {s : State} {r : RunResult} (h : s.runLoop fuel = some r) :
    r = r.final.result ∧ r.run ≠ .running := by
  obtain ⟨n, t, -, ⟨-, hended, -⟩, rfl⟩ := State.runLoop_eq_some_iff.mp h
  exact ⟨rfl, hended⟩

/-- A run state that is not Running is one of the three others (10_state.md R29). -/
theorem RunState.ended_cases {r : RunState} (h : r ≠ .running) :
    r = .halted ∨ (∃ rec, r = .failed rec) ∨ r = .cancelled := by
  cases r with
  | running => exact absurd rfl h
  | halted => exact .inl rfl
  | failed rec => exact .inr (.inl ⟨rec, rfl⟩)
  | cancelled => exact .inr (.inr rfl)

/-! ## The stop signal -/

/-- A cycle that is not cancelled takes its sample and does not end the run cancelled (40_cycle.md R81). -/
theorem step_of_no_stop {s t : State} (hstop : s.stopAsserted = false) (h : step s = .next t) :
    t.stop = s.stop.tail ∧ t.run ≠ .cancelled := by
  have hrun := (step_cases h).1
  cases stepEffect_of_step h with
  | cancels hasserted => exact absurd (hstop.symm.trans hasserted) Bool.false_ne_true
  | executes _ _ _ heff =>
    obtain ⟨hsamples, -⟩ := heff.fixed
    refine ⟨hsamples, ?_⟩
    rcases heff.run with hsame | ⟨-, hhalt⟩ | ⟨k, -, rfl⟩
    · rw [hsame, State.sampleStop_run, hrun]
      exact RunState.noConfusion
    · rw [hhalt]
      exact RunState.noConfusion
    · exact RunState.noConfusion
  | illegal _ _ => exact ⟨rfl, RunState.noConfusion⟩
  | truncated _ _ => exact ⟨rfl, RunState.noConfusion⟩

theorem State.stopAsserted_eq (s : State) : s.stopAsserted = s.stop[0]?.getD false := by
  rw [State.stopAsserted, List.headD_eq_head?_getD, List.head?_eq_getElem?]

/-- Each cycle is the cancelled one, ends the run, or leaves a run with one sample less to come. -/
theorem State.runLoop_of_asserted {s : State} {n : Nat} (hrun : s.run = .running) (hsample : s.stop[n]? = some true) :
    ∃ r, s.runLoop (n + 1) = some r := by
  induction n generalizing s with
  | zero =>
    have hstop : s.stopAsserted = true := by rw [State.stopAsserted_eq, hsample, Option.getD_some]
    rw [State.runLoop_of_next (step_of_stop hrun hstop)]
    exact ⟨_, State.runLoop_of_ended RunState.noConfusion 0⟩
  | succ n ih =>
    obtain ⟨t, hstep⟩ := exists_step hrun
    rw [State.runLoop_of_next hstep]
    by_cases ht : t.run = .running
    · cases hstop : s.stopAsserted with
      | true =>
        rw [step_of_stop hrun hstop] at hstep
        cases hstep
        cases ht
      | false =>
        obtain ⟨htail, -⟩ := step_of_no_stop hstop hstep
        exact ih ht (by rw [htail, List.getElem?_tail, hsample])
    · exact ⟨_, State.runLoop_of_ended ht _⟩

/-- Settles O55: the run ends by that cycle, and an ended run is halted, failed or cancelled. -/
theorem assertedStopEndsRun : Obligations.AssertedStopEndsRun := by
  intro s n hrun hsample
  obtain ⟨r, hr⟩ := State.runLoop_of_asserted hrun hsample
  obtain ⟨-, hended⟩ := State.runLoop_result hr
  exact ⟨r, hr, RunState.ended_cases hended⟩

/-- No sample to come is asserted, and the run is not cancelled. -/
def State.NeverStopped (s : State) : Prop :=
  s.run ≠ .cancelled ∧ ∀ b ∈ s.stop, b = false

theorem State.NeverStopped.step {s t : State} (hs : s.NeverStopped) (h : step s = .next t) : t.NeverStopped := by
  obtain ⟨-, hsamples⟩ := hs
  have hstop : s.stopAsserted = false := by
    rw [State.stopAsserted_eq]
    cases hfirst : s.stop[0]? with
    | none => rfl
    | some b => exact hsamples b (List.mem_of_getElem? hfirst)
  obtain ⟨htail, hrun⟩ := step_of_no_stop hstop h
  exact ⟨hrun, fun b hb => hsamples b (List.mem_of_mem_tail (htail ▸ hb))⟩

/-- Settles O56: every step keeps a run that is never stopped so, to its end. -/
theorem unassertedStopNeverCancels : Obligations.UnassertedStopNeverCancels := by
  rintro s r hrun hsamples ⟨fuel, h⟩
  have hs : s.NeverStopped := ⟨by rw [hrun]; exact RunState.noConfusion, hsamples⟩
  obtain ⟨hnot, -⟩ := State.runLoop_keeps (fun _ _ => State.NeverStopped.step) hs h
  obtain ⟨heq, hended⟩ := State.runLoop_result h
  rcases RunState.ended_cases hended with hhalt | hfail | hcancel
  · exact .inl hhalt
  · exact .inr hfail
  · exact absurd ((congrArg RunResult.run heq).symm.trans hcancel) hnot

/-! ## The host -/

theorem hostRun_of_accepted {c : Construction} (h : c.accepted = true) (stop : List Bool) (fuel : Nat) :
    hostRun c stop fuel = (c.state.withStop stop).runLoop fuel := by
  rw [hostRun, construct_of_accepted h]

/-- Settles O57: the host asserts the signal before the first cycle, which cancels the run. -/
theorem everyProgramCanBeCancelled : Obligations.EveryProgramCanBeCancelled := by
  intro c hacc
  have hrun : hostRun c [true] 1 = some (c.state.withStop [true]).cancel.result := by
    rw [hostRun_of_accepted hacc, State.runLoop_of_next (step_of_stop rfl rfl)]
    exact State.runLoop_of_ended RunState.noConfusion 0
  exact ⟨_, ⟨c, [true], 1, rfl, rfl, rfl, hrun⟩, rfl, rfl, rfl⟩

/-- Settles O58: every step keeps the two counts and the invariant, which a construction meets. -/
theorem observedResultsAreEndedRuns : Obligations.ObservedResultsAreEndedRuns := by
  rintro image memSize nGpr r ⟨c, stop, fuel, rfl, rfl, rfl, h⟩
  have hacc : c.accepted = true := by
    by_contra hrefused
    rw [hostRun, construct, if_neg hrefused] at h
    cases h
  rw [hostRun_of_accepted hacc] at h
  have hkeep : ∀ s t : State, (s.gpr.length = c.gprInit.length ∧ s.mem.size = c.capacity ∧ s.Inv) →
      step s = .next t → t.gpr.length = c.gprInit.length ∧ t.mem.size = c.capacity ∧ t.Inv := by
    rintro s t ⟨hgpr, hsize, hinv⟩ hstep
    obtain ⟨hsize', hgpr'⟩ := capacityAndRegisterCountAreFixed s t hstep
    exact ⟨hgpr'.trans hgpr, hsize'.trans hsize, stepKeepsInvariant s t hinv hstep⟩
  have hstart : (c.state.withStop stop).Inv := Construction.state_inv hacc
  obtain ⟨hgpr, hsize, hinv⟩ := State.runLoop_keeps hkeep ⟨rfl, c.memory_size, hstart⟩ h
  obtain ⟨heq, hended⟩ := State.runLoop_result h
  exact ⟨hended, congrArg RunResult.run heq, congrArg RunResult.out heq, hgpr, hsize, hinv⟩

end Sys2Proof.Machine
end
